-- ==== Sys2Proof/Word.lean ====
section
/-! DEFINITION. The word types of the core: bytes, 16-bit words, 12-bit addresses as they stand in an
instruction word, and register numbers. Every value is unsigned (spec 00_scope.md R7, R8). -/

namespace Sys2Proof

/-- A general register, a timer, a memory cell: 8 bits (10_state.md R21, R27, R30). -/
abbrev Byte := BitVec 8

/-- `I`, `PC`, a stack slot, an instruction word: 16 bits (10_state.md R23, R24, R29; 30_encoding.md R80). -/
abbrev Word := BitVec 16

/-- The field `nnn = op[11:0]` of an instruction word (30_encoding.md R82). -/
abbrev Addr12 := BitVec 12

/-- The number of a general register, `V0` to `VF`: a 4-bit field cannot name any other (10_state.md R21). -/
abbrev Reg := Fin 16

end Sys2Proof
end

