-- ==== Sys2Proof/Syntax.lean ====
section
/-! DEFINITION. The instructions: one constructor per row of spec/opcode_table.json, in the table's order. -/

namespace Sys2Proof

/-- One constructor per row of the opcode table; operands as 30_encoding.md R82 names them. `shr` and `shl`
keep the field `y`, which is ignored (R88) but belongs to the word. -/
inductive Instr where
  /-- 00E0, clear the framebuffer (41_system_and_flow.md R120). -/
  | cls
  /-- 00EE, return (R121). -/
  | ret
  /-- 1nnn, jump (R122). -/
  | jp (nnn : Addr12)
  /-- 2nnn, call (R123). -/
  | call (nnn : Addr12)
  /-- 3xnn, skip if `V[x] = nn` (42_skips.md R130). -/
  | seImm (x : Reg) (nn : Byte)
  /-- 4xnn, skip if `V[x] ≠ nn` (R131). -/
  | sneImm (x : Reg) (nn : Byte)
  /-- 5xy0, skip if `V[x] = V[y]` (R132). -/
  | seReg (x y : Reg)
  /-- 6xnn, load immediate (43_load_add_random.md R140). -/
  | ldImm (x : Reg) (nn : Byte)
  /-- 7xnn, add immediate (R141). -/
  | addImm (x : Reg) (nn : Byte)
  /-- 8xy0, move (44_alu.md R152). -/
  | ldReg (x y : Reg)
  /-- 8xy1 (R153). -/
  | orReg (x y : Reg)
  /-- 8xy2 (R154). -/
  | andReg (x y : Reg)
  /-- 8xy3 (R155). -/
  | xorReg (x y : Reg)
  /-- 8xy4, add with carry flag (R156). -/
  | addReg (x y : Reg)
  /-- 8xy5, subtract with flag (R157). -/
  | sub (x y : Reg)
  /-- 8xy6, shift right; `y` ignored (R158). -/
  | shr (x y : Reg)
  /-- 8xy7, reverse subtract (R159). -/
  | subn (x y : Reg)
  /-- 8xyE, shift left; `y` ignored (R160). -/
  | shl (x y : Reg)
  /-- 9xy0, skip if `V[x] ≠ V[y]` (42_skips.md R133). -/
  | sneReg (x y : Reg)
  /-- Annn, load `I` (43_load_add_random.md R142). -/
  | ldI (nnn : Addr12)
  /-- Bnnn, jump to `nnn + V[0]` (41_system_and_flow.md R124). -/
  | jpV0 (nnn : Addr12)
  /-- Cxnn, masked random byte (43_load_add_random.md R143). -/
  | rnd (x : Reg) (nn : Byte)
  /-- Dxyn, sprite blit of `n` rows (45_draw.md R172). -/
  | drw (x y : Reg) (n : Fin 16)
  /-- Ex9E, recognised and unimplemented (46_keys.md R180). -/
  | keyPressedSkip (x : Reg)
  /-- ExA1, recognised and unimplemented (R181). -/
  | keyNotPressedSkip (x : Reg)
  /-- Fx07, read the delay timer (47_misc.md R190). -/
  | ldVxDt (x : Reg)
  /-- Fx0A, recognised and unimplemented (46_keys.md R182). -/
  | waitKey (x : Reg)
  /-- Fx15, write the delay timer (47_misc.md R191). -/
  | ldDtVx (x : Reg)
  /-- Fx18, write the sound timer (R192). -/
  | ldStVx (x : Reg)
  /-- Fx1E, add to `I` (R193). -/
  | addI (x : Reg)
  /-- Fx29, recognised and unimplemented (R194). -/
  | fontAddr (x : Reg)
  /-- Fx33, decimal digits to memory (R195). -/
  | bcd (x : Reg)
  /-- Fx55, store `V[0..x]` (R196). -/
  | store (x : Reg)
  /-- Fx65, load `V[0..x]` (R197). -/
  | load (x : Reg)
  /-- Every other word (30_encoding.md R90; 40_cycle_and_dispatch.md R107). -/
  | unknown (op : Word)
  deriving DecidableEq, Repr

end Sys2Proof
end

