-- ==== Sys2Proof/WellFormed.lean ====
section
/-! DEFINITION. Which terms of `Instr` stand for a word of their own row. Register numbers, immediates and
addresses are bounded by their types; the one check left is that `unknown op` holds a word no other row
takes. It is written with numbers from the list of 30_encoding.md R90, not with the decoder's fields. -/

namespace Sys2Proof

/-- The words of 30_encoding.md R90's list, row by row: the words that report `UNKNOWN`, the four recognised
and unimplemented encodings among them. -/
def unknownWord (op : Word) : Bool :=
  let w := op.toNat
  let major := w / 4096
  let low := w % 16
  let lowByte := w % 256
  (major == 0x0 && w != 0x00E0 && w != 0x00EE)
    || (major == 0x5 && low != 0)
    || (major == 0x8 && [0x8, 0x9, 0xA, 0xB, 0xC, 0xD, 0xF].contains low)
    || (major == 0x9 && low != 0)
    || major == 0xE
    || (major == 0xF && !([0x07, 0x15, 0x18, 0x1E, 0x33, 0x55, 0x65].contains lowByte))

/-- The four recognised and unimplemented encodings, which have rows of their own (30_encoding.md R91). -/
def recognisedWord (op : Word) : Bool :=
  let w := op.toNat
  let major := w / 4096
  let lowByte := w % 256
  (major == 0xE && (lowByte == 0x9E || lowByte == 0xA1))
    || (major == 0xF && (lowByte == 0x0A || lowByte == 0x29))

/-- `unknown op` is well formed when `op` is in R90's list and in no row of its own; every other
constructor's operands are bounded by their types. -/
def Instr.wellFormed (i : Instr) : Bool :=
  match i with
  | .unknown op => unknownWord op && !(recognisedWord op)
  | .cls => true
  | .ret => true
  | .jp _ => true
  | .call _ => true
  | .seImm _ _ => true
  | .sneImm _ _ => true
  | .seReg _ _ => true
  | .ldImm _ _ => true
  | .addImm _ _ => true
  | .ldReg _ _ => true
  | .orReg _ _ => true
  | .andReg _ _ => true
  | .xorReg _ _ => true
  | .addReg _ _ => true
  | .sub _ _ => true
  | .shr _ _ => true
  | .subn _ _ => true
  | .shl _ _ => true
  | .sneReg _ _ => true
  | .ldI _ => true
  | .jpV0 _ => true
  | .rnd _ _ => true
  | .drw _ _ _ => true
  | .keyPressedSkip _ => true
  | .keyNotPressedSkip _ => true
  | .ldVxDt _ => true
  | .waitKey _ => true
  | .ldDtVx _ => true
  | .ldStVx _ => true
  | .addI _ => true
  | .fontAddr _ => true
  | .bcd _ => true
  | .store _ => true
  | .load _ => true

end Sys2Proof
end

