-- ==== Sys2Proof/Decode.lean ====
section
/-! DEFINITION. The decoder, total on every word and every byte sequence, then the encoder, the rows of the
opcode table, and the host's entry `decodeTableWord` (spec/30_encoding.md). -/

namespace Sys2Proof

/-- `op[15:12]`, the nibble the dispatch looks at first (30_encoding.md R81). -/
def fieldMajor (op : Word) : Nat := (op.extractLsb' 12 4).toNat

/-- `x = op[11:8]` (30_encoding.md R82). -/
def fieldX (op : Word) : Reg := (op.extractLsb' 8 4).toFin

/-- `y = op[7:4]` (30_encoding.md R82). -/
def fieldY (op : Word) : Reg := (op.extractLsb' 4 4).toFin

/-- `n = op[3:0]` (30_encoding.md R82). -/
def fieldN (op : Word) : Fin 16 := (op.extractLsb' 0 4).toFin

/-- `nn = op[7:0]` (30_encoding.md R82). -/
def fieldNn (op : Word) : Byte := op.extractLsb' 0 8

/-- `nnn = op[11:0]` (30_encoding.md R82). -/
def fieldNnn (op : Word) : Addr12 := op.extractLsb' 0 12

/-- Major nibble 0x8: the low nibble selects the operation (30_encoding.md R88). -/
def decodeAlu (op : Word) : Instr :=
  match (fieldN op).val with
  | 0x0 => .ldReg (fieldX op) (fieldY op)
  | 0x1 => .orReg (fieldX op) (fieldY op)
  | 0x2 => .andReg (fieldX op) (fieldY op)
  | 0x3 => .xorReg (fieldX op) (fieldY op)
  | 0x4 => .addReg (fieldX op) (fieldY op)
  | 0x5 => .sub (fieldX op) (fieldY op)
  | 0x6 => .shr (fieldX op) (fieldY op)
  | 0x7 => .subn (fieldX op) (fieldY op)
  | 0xE => .shl (fieldX op) (fieldY op)
  | _   => .unknown op

/-- Major nibble 0xF: the low byte selects the operation (30_encoding.md R89). -/
def decodeMisc (op : Word) : Instr :=
  match (fieldNn op).toNat with
  | 0x07 => .ldVxDt (fieldX op)
  | 0x0A => .waitKey (fieldX op)
  | 0x15 => .ldDtVx (fieldX op)
  | 0x18 => .ldStVx (fieldX op)
  | 0x1E => .addI (fieldX op)
  | 0x29 => .fontAddr (fieldX op)
  | 0x33 => .bcd (fieldX op)
  | 0x55 => .store (fieldX op)
  | 0x65 => .load (fieldX op)
  | _    => .unknown op

/-- Major nibble 0xE: two recognised words, every other one unknown (30_encoding.md R89, R91). -/
def decodeKey (op : Word) : Instr :=
  match (fieldNn op).toNat with
  | 0x9E => .keyPressedSkip (fieldX op)
  | 0xA1 => .keyNotPressedSkip (fieldX op)
  | _    => .unknown op

/-- The decoding procedure of 30_encoding.md R83: total, no word is refused (60_exceptions.md R226). -/
def decode (op : Word) : Instr :=
  match fieldMajor op with
  | 0x0 => if op = 0x00E0#16 then .cls else if op = 0x00EE#16 then .ret else .unknown op
  | 0x1 => .jp (fieldNnn op)
  | 0x2 => .call (fieldNnn op)
  | 0x3 => .seImm (fieldX op) (fieldNn op)
  | 0x4 => .sneImm (fieldX op) (fieldNn op)
  | 0x5 => if (fieldN op).val = 0 then .seReg (fieldX op) (fieldY op) else .unknown op
  | 0x6 => .ldImm (fieldX op) (fieldNn op)
  | 0x7 => .addImm (fieldX op) (fieldNn op)
  | 0x8 => decodeAlu op
  | 0x9 => if (fieldN op).val = 0 then .sneReg (fieldX op) (fieldY op) else .unknown op
  | 0xA => .ldI (fieldNnn op)
  | 0xB => .jpV0 (fieldNnn op)
  | 0xC => .rnd (fieldX op) (fieldNn op)
  | 0xD => .drw (fieldX op) (fieldY op) (fieldN op)
  | 0xE => decodeKey op
  | 0xF => decodeMisc op
  | _   => .unknown op  -- no word has a major nibble above 0xF

/-- Why a byte sequence holds no instruction. -/
inductive DecodeError where
  /-- Fewer than the 2 bytes every instruction has (30_encoding.md R80); only `decodeBytes` answers it. -/
  | truncated (bytes : Nat)
  deriving DecidableEq, Repr

/-- The word of two bytes, the first one the high half: `op = Mem[PC] * 256 + Mem[PC + 1]` (20_memory.md R61). -/
def wordOfBytes (hi lo : Byte) : Word := BitVec.ofNat 16 (hi.toNat * 256 + lo.toNat)

/-- The two bytes of a word in the order they lie in memory (20_memory.md R61). -/
def bytesOfWord (op : Word) : List Byte := [op.extractLsb' 8 8, op.extractLsb' 0 8]

/-- Decoding from bytes: one instruction and the rest; refused by name when two bytes are not there. -/
def decodeBytes : List Byte → Except DecodeError (Instr × List Byte)
  | hi :: lo :: rest => .ok (decode (wordOfBytes hi lo), rest)
  | short => .error (.truncated short.length)

/-! The encoder, one function per format of 30_encoding.md R81, each field a number times the weight of its
lowest bit. -/

/-- Format `NNN`: major, `nnn`. -/
def encodeNnn (major : Fin 16) (nnn : Addr12) : Word :=
  BitVec.ofNat 16 (major.val * 0x1000 + nnn.toNat)

/-- Formats `XNN` and `XSS`: major, `x`, a byte. -/
def encodeXnn (major : Fin 16) (x : Reg) (nn : Byte) : Word :=
  BitVec.ofNat 16 (major.val * 0x1000 + x.val * 0x100 + nn.toNat)

/-- Formats `XYS` and `XYN`: major, `x`, `y`, a nibble. -/
def encodeXyn (major : Fin 16) (x y : Reg) (n : Fin 16) : Word :=
  BitVec.ofNat 16 (major.val * 0x1000 + x.val * 0x100 + y.val * 0x10 + n.val)

/-- The word of an instruction (30_encoding.md R84 to R89). -/
def encode (i : Instr) : Word :=
  match i with
  | .cls => 0x00E0#16
  | .ret => 0x00EE#16
  | .jp nnn => encodeNnn 0x1 nnn
  | .call nnn => encodeNnn 0x2 nnn
  | .seImm x nn => encodeXnn 0x3 x nn
  | .sneImm x nn => encodeXnn 0x4 x nn
  | .seReg x y => encodeXyn 0x5 x y 0x0
  | .ldImm x nn => encodeXnn 0x6 x nn
  | .addImm x nn => encodeXnn 0x7 x nn
  | .ldReg x y => encodeXyn 0x8 x y 0x0
  | .orReg x y => encodeXyn 0x8 x y 0x1
  | .andReg x y => encodeXyn 0x8 x y 0x2
  | .xorReg x y => encodeXyn 0x8 x y 0x3
  | .addReg x y => encodeXyn 0x8 x y 0x4
  | .sub x y => encodeXyn 0x8 x y 0x5
  | .shr x y => encodeXyn 0x8 x y 0x6
  | .subn x y => encodeXyn 0x8 x y 0x7
  | .shl x y => encodeXyn 0x8 x y 0xE
  | .sneReg x y => encodeXyn 0x9 x y 0x0
  | .ldI nnn => encodeNnn 0xA nnn
  | .jpV0 nnn => encodeNnn 0xB nnn
  | .rnd x nn => encodeXnn 0xC x nn
  | .drw x y n => encodeXyn 0xD x y n
  | .keyPressedSkip x => encodeXnn 0xE x 0x9E#8
  | .keyNotPressedSkip x => encodeXnn 0xE x 0xA1#8
  | .ldVxDt x => encodeXnn 0xF x 0x07#8
  | .waitKey x => encodeXnn 0xF x 0x0A#8
  | .ldDtVx x => encodeXnn 0xF x 0x15#8
  | .ldStVx x => encodeXnn 0xF x 0x18#8
  | .addI x => encodeXnn 0xF x 0x1E#8
  | .fontAddr x => encodeXnn 0xF x 0x29#8
  | .bcd x => encodeXnn 0xF x 0x33#8
  | .store x => encodeXnn 0xF x 0x55#8
  | .load x => encodeXnn 0xF x 0x65#8
  | .unknown op => op

/-! The `match` and `mask` columns of spec/opcode_table.json. -/

/-- A row's fixed bits: `op` selects the row when `op &&& mask = pattern`. -/
structure Row where
  pattern : Word
  mask    : Word
  deriving DecidableEq, Repr

/-- The row of spec/opcode_table.json an instruction belongs to; `unknown` has the catch-all row. -/
def Instr.row (i : Instr) : Row :=
  match i with
  | .cls => ⟨0x00E0#16, 0xFFFF#16⟩
  | .ret => ⟨0x00EE#16, 0xFFFF#16⟩
  | .jp _ => ⟨0x1000#16, 0xF000#16⟩
  | .call _ => ⟨0x2000#16, 0xF000#16⟩
  | .seImm _ _ => ⟨0x3000#16, 0xF000#16⟩
  | .sneImm _ _ => ⟨0x4000#16, 0xF000#16⟩
  | .seReg _ _ => ⟨0x5000#16, 0xF00F#16⟩
  | .ldImm _ _ => ⟨0x6000#16, 0xF000#16⟩
  | .addImm _ _ => ⟨0x7000#16, 0xF000#16⟩
  | .ldReg _ _ => ⟨0x8000#16, 0xF00F#16⟩
  | .orReg _ _ => ⟨0x8001#16, 0xF00F#16⟩
  | .andReg _ _ => ⟨0x8002#16, 0xF00F#16⟩
  | .xorReg _ _ => ⟨0x8003#16, 0xF00F#16⟩
  | .addReg _ _ => ⟨0x8004#16, 0xF00F#16⟩
  | .sub _ _ => ⟨0x8005#16, 0xF00F#16⟩
  | .shr _ _ => ⟨0x8006#16, 0xF00F#16⟩
  | .subn _ _ => ⟨0x8007#16, 0xF00F#16⟩
  | .shl _ _ => ⟨0x800E#16, 0xF00F#16⟩
  | .sneReg _ _ => ⟨0x9000#16, 0xF00F#16⟩
  | .ldI _ => ⟨0xA000#16, 0xF000#16⟩
  | .jpV0 _ => ⟨0xB000#16, 0xF000#16⟩
  | .rnd _ _ => ⟨0xC000#16, 0xF000#16⟩
  | .drw _ _ _ => ⟨0xD000#16, 0xF000#16⟩
  | .keyPressedSkip _ => ⟨0xE09E#16, 0xF0FF#16⟩
  | .keyNotPressedSkip _ => ⟨0xE0A1#16, 0xF0FF#16⟩
  | .ldVxDt _ => ⟨0xF007#16, 0xF0FF#16⟩
  | .waitKey _ => ⟨0xF00A#16, 0xF0FF#16⟩
  | .ldDtVx _ => ⟨0xF015#16, 0xF0FF#16⟩
  | .ldStVx _ => ⟨0xF018#16, 0xF0FF#16⟩
  | .addI _ => ⟨0xF01E#16, 0xF0FF#16⟩
  | .fontAddr _ => ⟨0xF029#16, 0xF0FF#16⟩
  | .bcd _ => ⟨0xF033#16, 0xF0FF#16⟩
  | .store _ => ⟨0xF055#16, 0xF0FF#16⟩
  | .load _ => ⟨0xF065#16, 0xF0FF#16⟩
  | .unknown _ => ⟨0x0000#16, 0x0000#16⟩

/-- The 34 rows before the catch-all, as spec/opcode_table.json lists them. -/
def opcodeRows : List Row :=
  [⟨0x00E0#16, 0xFFFF#16⟩, ⟨0x00EE#16, 0xFFFF#16⟩, ⟨0x1000#16, 0xF000#16⟩, ⟨0x2000#16, 0xF000#16⟩,
   ⟨0x3000#16, 0xF000#16⟩, ⟨0x4000#16, 0xF000#16⟩, ⟨0x5000#16, 0xF00F#16⟩, ⟨0x6000#16, 0xF000#16⟩,
   ⟨0x7000#16, 0xF000#16⟩] ++
  [⟨0x8000#16, 0xF00F#16⟩, ⟨0x8001#16, 0xF00F#16⟩, ⟨0x8002#16, 0xF00F#16⟩, ⟨0x8003#16, 0xF00F#16⟩,
   ⟨0x8004#16, 0xF00F#16⟩, ⟨0x8005#16, 0xF00F#16⟩, ⟨0x8006#16, 0xF00F#16⟩, ⟨0x8007#16, 0xF00F#16⟩,
   ⟨0x800E#16, 0xF00F#16⟩] ++
  [⟨0x9000#16, 0xF00F#16⟩, ⟨0xA000#16, 0xF000#16⟩, ⟨0xB000#16, 0xF000#16⟩, ⟨0xC000#16, 0xF000#16⟩,
   ⟨0xD000#16, 0xF000#16⟩, ⟨0xE09E#16, 0xF0FF#16⟩, ⟨0xE0A1#16, 0xF0FF#16⟩] ++
  [⟨0xF007#16, 0xF0FF#16⟩, ⟨0xF00A#16, 0xF0FF#16⟩, ⟨0xF015#16, 0xF0FF#16⟩, ⟨0xF018#16, 0xF0FF#16⟩,
   ⟨0xF01E#16, 0xF0FF#16⟩, ⟨0xF029#16, 0xF0FF#16⟩, ⟨0xF033#16, 0xF0FF#16⟩, ⟨0xF055#16, 0xF0FF#16⟩,
   ⟨0xF065#16, 0xF0FF#16⟩]

/-! The host's numbering: bit 0 is the least significant bit of the instruction's one word. -/

/-- The 16-bit instruction word the host means by `nbits` bits `w`: the bits above `nbits` are 0. -/
def tableWord (nbits w : Nat) : Word := BitVec.ofNat 16 (w % 2 ^ nbits)

/-- The instruction the decoder reads from that word laid out as memory holds it. -/
def decodeTableWord (nbits w : Nat) : Option Instr :=
  match decodeBytes (bytesOfWord (tableWord nbits w)) with
  | .ok (i, _) => some i
  | .error _ => none

end Sys2Proof
end

