-- ==== Sys2Proof/Config.lean ====
section
/-! DEFINITION. What the spec fixes (00_scope.md R5), what it leaves to the implementation (R6), and the
free byte behind the input `rnd`. -/

namespace Sys2Proof

/-- `MEM_SIZE`: addresses 0x000 to 0xFFF (00_scope.md R5). -/
def memSize : Nat := 4096

/-- `PROG_BASE`, where `Load` puts an image (00_scope.md R5). -/
def progBase : Nat := 0x200

/-- `MAX_IMAGE`, the longest image `Load` takes (00_scope.md R5). -/
def maxImage : Nat := 3584

/-- `FLAG_MODE` (00_scope.md R6; 44_alu.md R151). -/
inductive FlagMode where
  | symmetric
  | referenceAsymmetric
  deriving DecidableEq, Repr

/-- `FX1E_VF_ELSE` (00_scope.md R6; 47_misc.md R193). -/
inductive Fx1eVfElse where
  | unchanged
  | clear
  deriving DecidableEq, Repr

/-- `SHL_FLAG` (00_scope.md R6; 44_alu.md R160). -/
inductive ShlFlag where
  | nonZero
  | highBit
  deriving DecidableEq, Repr

/-- The parameters of 00_scope.md R6 that a step reads. A state carries its own (log 1), so a claim about
every state is a claim about every setting. `LOW_MEM_INIT` is an argument of `State.powerOn` (log 3). -/
structure Config where
  stackDepth : Nat
  flagMode   : FlagMode
  fx1eVfElse : Fx1eVfElse
  shlFlag    : ShlFlag
  deriving DecidableEq, Repr

/-- The spec's defaults (00_scope.md R6). -/
def Config.standard : Config :=
  { stackDepth := 16, flagMode := .symmetric, fx1eVfElse := .unchanged, shlFlag := .nonZero }

/-- `STACK_DEPTH` is at least 16 and at most 255 (00_scope.md R6). -/
def Config.wf (c : Config) : Bool := decide (16 ≤ c.stackDepth) && decide (c.stackDepth ≤ 255)

/-- The bytes the environment supplies as `rnd`, under no law (00_scope.md R6, D25): FREE VALUE, log 2. -/
opaque Config.freeByte : Nat → Byte

end Sys2Proof
end

