-- ==== Sys2Proof/Machine/State.lean ====
section
/-! DEFINITION. The state of the core as plain data (spec/10_state.md R20), the reasons an outcome stops, and
the state after power-on with the spec's default parameters. -/

namespace Sys2Proof.Machine

/-- Memory as (address, byte) pairs, addresses strictly rising, no entry equal to what an unlisted address
reads as (`Memory.wf` in Ops.lean). -/
abbrev Memory := List Host.Cell

/-- `FB[row][col]`: 32 rows of 64 cells, true is set (10_state.md R34). -/
abbrev Framebuffer := Vector (Vector Bool 64) 32

/-- The classification tokens (10_state.md R37). -/
inductive Token where
  | none | cls | ret | jp | jpSelf | call | seImm | sneImm | seReg | ldImm | addImm
  | ldReg | or | and | xor | addReg | sub | shr | subn | shl | sneReg
  | ldI | jpV0 | rnd | drw | ldVxDt | ldDtVx | ldStVx | addI | bcd | store | load | unknown
  deriving DecidableEq, Repr

/-- The causes of a fault (60_exceptions.md R210, R214 to R216). -/
inductive FaultCause where
  /-- An access would touch an address above 0xFFF; `addr` is the lowest such address. -/
  | addressOutOfRange (addr : Nat)
  /-- 2nnn with every stack slot in use. -/
  | stackOverflow
  /-- 00EE with an empty stack. -/
  | stackUnderflow
  deriving DecidableEq, Repr

/-- The fault record (10_state.md R38): `pc` is the address of the faulting instruction, `op` its word, absent
when the fetch itself faulted. -/
structure FaultRecord where
  cause : FaultCause
  pc    : Word
  op    : Option Word
  deriving DecidableEq, Repr

/-- Why a step stops. -/
inductive Fault where
  /-- A fault is recorded, so the machine has no enabled step (40_cycle_and_dispatch.md R108; 60_exceptions.md
  R213). Raised by `step` alone, never by a meaning. Safe: the hardware does nothing either (log 4). -/
  | stuck (r : FaultRecord)
  deriving DecidableEq, Repr

/-- Why an instruction has no meaning. -/
inductive Refusal where
  /-- Reserved for an arm of `exec` without a meaning; no arm uses it. Safe. -/
  | notModelled (mnemonic : String)
  deriving DecidableEq, Repr

/-- The whole state: the thirteen fields of 10_state.md R20, then the model's own three (INVENTORY.md). -/
structure State where
  /-- `V[0..15]` (R21). -/
  v         : Vector Byte 16
  /-- `I` (R23). -/
  i         : Word
  /-- `PC` (R24). -/
  pc        : Word
  /-- `SP` (R26). -/
  sp        : BitVec 8
  /-- `Stack`, `config.stackDepth` slots (R29). -/
  stack     : List Word
  /-- `TD` (R27). -/
  td        : Byte
  /-- `TS` (R27). -/
  ts        : Byte
  /-- `Mem` (R30). -/
  mem       : Memory
  /-- `FB` (R34). -/
  fb        : Framebuffer
  /-- `Keys` (R35). -/
  keys      : Vector Bool 16
  /-- `lastOp` (R36). -/
  lastOp    : Word
  /-- `lastClass` (R37). -/
  lastClass : Token
  /-- `fault` (R38). -/
  fault     : Option FaultRecord
  /-- The model's own: the parameters of 00_scope.md R6 (log 1). -/
  config    : Config
  /-- The model's own: the input `rnd` of the coming `Step` (43_load_add_random.md R143; log 2). -/
  rnd       : Byte
  /-- The model's own: selects the next free byte (log 2). -/
  draws     : Nat
  deriving DecidableEq, Repr

/-- The state after `PowerOn` (70_reset_and_hazards.md R240; 10_state.md R40) with the default parameters and
`LOW_MEM_INIT` all 0x00, the spec's simulation default (R33; log 3). `State.powerOn` (External.lean) takes both
as arguments. -/
def State.reset : State where
  v         := Vector.replicate 16 0#8
  i         := 0#16
  pc        := 0x0000#16
  sp        := 0#8
  stack     := List.replicate 16 0#16
  td        := 0#8
  ts        := 0#8
  mem       := []
  fb        := Vector.replicate 32 (Vector.replicate 64 false)
  keys      := Vector.replicate 16 false
  lastOp    := 0x0000#16
  lastClass := .none
  fault     := Option.none
  config    := Config.standard
  rnd       := Config.freeByte 0
  draws     := 1

end Sys2Proof.Machine
end

