-- ==== Sys2Proof/Machine/Ops.lean ====
section
/-! DEFINITION. The shared operations over memory, registers, stack, framebuffer, timers and the keypad; the
fetch; the common part of a cycle; taking a fault and leaving it. -/

namespace Sys2Proof.Machine

/-! Memory (20_memory.md). -/

/-- What an address no entry lists reads as: 0x00 (10_state.md R32; for 0x000 to 0x1FF log 3). -/
def Memory.unlisted : Byte := 0x00#8

/-- `Mem[a]`. -/
def Memory.read (m : Memory) (a : Nat) : Byte :=
  match m with
  | [] => Memory.unlisted
  | (b, w) :: rest => if a = b then w else Memory.read rest a

/-- `Mem[a] <- v`, keeping the canonical form. -/
def Memory.write (m : Memory) (a : Nat) (v : Byte) : Memory :=
  match m with
  | [] => if v = Memory.unlisted then [] else [(a, v)]
  | (b, w) :: rest =>
    if a < b then
      if v = Memory.unlisted then (b, w) :: rest else (a, v) :: (b, w) :: rest
    else if a = b then
      if v = Memory.unlisted then rest else (a, v) :: rest
    else (b, w) :: Memory.write rest a v

/-- Writes of consecutive bytes, upward from `base`. -/
def Memory.writeList (m : Memory) (base : Nat) (bytes : List Byte) : Memory :=
  match bytes with
  | [] => m
  | b :: rest => Memory.writeList (Memory.write m base b) (base + 1) rest

/-- Reads of `count` consecutive bytes, upward from `base`. -/
def Memory.readList (m : Memory) (base : Nat) (count : Nat) : List Byte :=
  match count with
  | 0 => []
  | k + 1 => Memory.read m base :: Memory.readList m (base + 1) k

/-- The canonical form of a memory whose addresses are at least `lo`. -/
def Memory.wfFrom (lo : Nat) (m : Memory) : Bool :=
  match m with
  | [] => true
  | (a, v) :: rest =>
    decide (lo ≤ a) && decide (a < memSize) && decide (v ≠ Memory.unlisted) && Memory.wfFrom (a + 1) rest

/-- The canonical form: addresses strictly rising and below `MEM_SIZE`, no entry equal to what an unlisted
address reads as. -/
def Memory.wf (m : Memory) : Bool := Memory.wfFrom 0 m

/-- `MemRead(addr, 1)` (20_memory.md R60, R62). -/
def State.memRead (s : State) (addr : Nat) : Except FaultCause Byte :=
  if addr < memSize then .ok (s.mem.read addr) else .error (.addressOutOfRange addr)

/-- `MemWrite(addr, 1, v)` (20_memory.md R60, R62). -/
def State.memWrite (s : State) (addr : Nat) (v : Byte) : Except FaultCause State :=
  if addr < memSize then .ok { s with mem := s.mem.write addr v } else .error (.addressOutOfRange addr)

/-- The check of a whole range before its first access: the fault, if any, names the lowest address above
0xFFF (20_memory.md R62; 60_exceptions.md R214; D30). An empty range never faults (D26). -/
def rangeFault (base count : Nat) : Option FaultCause :=
  if 0 < count ∧ memSize < base + count then some (.addressOutOfRange (max base memSize)) else none

/-- A store of consecutive bytes whose range has been checked. -/
def State.storeBytes (s : State) (base : Nat) (bytes : List Byte) : State :=
  { s with mem := s.mem.writeList base bytes }

/-! General registers (10_state.md R21). -/

/-- `V[r]`. -/
def State.reg (s : State) (r : Reg) : Byte := s.v.get r

/-- `V[r] <- b`. -/
def State.setReg (s : State) (r : Reg) (b : Byte) : State := { s with v := s.v.set r b }

/-- The register that doubles as the flag (10_state.md R22). -/
def regVF : Reg := 15

/-- `V[15] <- flag`, then `V[x] <- result`: with `x = 15` the result stays (40_cycle_and_dispatch.md R106). -/
def State.setFlagThenReg (s : State) (flag : Byte) (x : Reg) (result : Byte) : State :=
  (s.setReg regVF flag).setReg x result

/-- `V[k] <- bytes[k]` for the first registers, upward from `k` (47_misc.md R197). -/
def State.setRegsFrom (s : State) (k : Nat) (bytes : List Byte) : State :=
  match bytes with
  | [] => s
  | b :: rest => (if h : k < 16 then s.setReg ⟨k, h⟩ b else s).setRegsFrom (k + 1) rest

/-- `V[0], ..., V[count - 1]` (47_misc.md R196). -/
def State.firstRegs (s : State) (count : Nat) : List Byte := s.v.toList.take count

/-! Call stack (10_state.md R29). -/

/-- `Stack[k]`; a slot at or past the depth, which no reachable state addresses, reads 0 (log 5). -/
def State.slot (s : State) (k : Nat) : Word := s.stack.getD k 0#16

/-- `Stack[k] <- w`. -/
def State.setSlot (s : State) (k : Nat) (w : Word) : State := { s with stack := s.stack.set k w }

/-- "Push stores current `PC` at index `SP` then increments `SP`" (10_state.md R29). -/
def State.push (s : State) : State :=
  let stored := s.setSlot s.sp.toNat s.pc
  { stored with sp := s.sp + 1#8 }

/-- "pop decrements `SP` then loads `PC` from that slot and clears the vacated slot" (10_state.md R29, D18). -/
def State.pop (s : State) : State :=
  let sp' := s.sp - 1#8
  let cleared := s.setSlot sp'.toNat 0#16
  { cleared with sp := sp', pc := s.slot sp'.toNat }

/-! Framebuffer (10_state.md R34). -/

/-- `FB[row][col]` of a framebuffer. -/
def Framebuffer.cell (fb : Framebuffer) (row : Fin 32) (col : Fin 64) : Bool := (fb.get row).get col

/-- `FB[row][col] <- FB[row][col] ^ 1`. -/
def Framebuffer.flip (fb : Framebuffer) (row : Fin 32) (col : Fin 64) : Framebuffer :=
  fb.set row ((fb.get row).set col (!(Framebuffer.cell fb row col)))

/-- Every cell 0. -/
def Framebuffer.clear : Framebuffer := Vector.replicate 32 (Vector.replicate 64 false)

/-- `FB[row][col]`. -/
def State.cell (s : State) (row : Fin 32) (col : Fin 64) : Bool := Framebuffer.cell s.fb row col

/-! Keypad latch (10_state.md R35): written by the host alone. -/

/-- `Keys[k]`. -/
def State.key (s : State) (k : Fin 16) : Bool := s.keys.get k

/-- `Keys[k] <- b`. -/
def State.setKey (s : State) (k : Fin 16) (b : Bool) : State := { s with keys := s.keys.set k b }

/-! The cycle (40_cycle_and_dispatch.md R100). -/

/-- One timer's decrement, floor 0 (R103). -/
def timerTick (t : Byte) : Byte := if t = 0#8 then 0#8 else t - 1#8

/-- The fetch: the byte at `PC`, then the byte at `PC + 1`, big-endian (R101; 20_memory.md R61, R63). -/
def State.fetch (s : State) : Except FaultCause Word :=
  match s.memRead s.pc.toNat with
  | .error c => .error c
  | .ok hi =>
    match s.memRead (s.pc.toNat + 1) with
    | .error c => .error c
    | .ok lo => .ok (wordOfBytes hi lo)

/-- TAKING A FAULT (60_exceptions.md R212): nothing of the cycle is kept; the record holds the cause, the
address of the instruction and its word. `s` is the state before the cycle. -/
def State.raise (s : State) (cause : FaultCause) (op : Option Word) : State :=
  { s with fault := some { cause := cause, pc := s.pc, op := op } }

/-- LEAVING A FAULT: the core has no return instruction; only the host's `Reset` clears the record
(60_exceptions.md R213). `Reset` writes every field but `Mem` to its power-on value (70_reset_and_hazards.md R241);
the model's parameters, input and counter stay. -/
def State.fullReset (s : State) : State where
  v         := Vector.replicate 16 0#8
  i         := 0#16
  pc        := 0x0000#16
  sp        := 0#8
  stack     := List.replicate s.config.stackDepth 0#16
  td        := 0#8
  ts        := 0#8
  mem       := s.mem
  fb        := Framebuffer.clear
  keys      := Vector.replicate 16 false
  lastOp    := 0x0000#16
  lastClass := .none
  fault     := Option.none
  config    := s.config
  rnd       := s.rnd
  draws     := s.draws

/-- The state an instruction of word `op` is dispatched in: `PC` advanced, both timers decremented, `lastOp`
written (R100, R102 to R104). The input `rnd` of this cycle is used up: the next one is free (R109; log 2). -/
def State.dispatched (s : State) (op : Word) : State :=
  { s with
    pc := s.pc + 2#16
    td := timerTick s.td
    ts := timerTick s.ts
    lastOp := op
    rnd := Config.freeByte s.draws
    draws := s.draws + 1 }

/-- What a meaning answers. -/
abbrev Result := Host.Outcome State Fault Refusal

/-- A cycle of instruction `i` that does not fault: the common part, the instruction's effect on the dispatched
state, then `lastClass` (R100). -/
def complete (i : Instr) (token : Token) (effect : State → State) (s : State) : Result :=
  .next { effect (s.dispatched (encode i)) with lastClass := token }

/-- A cycle of instruction `i` whose fault condition, if it holds, is raised before the first write
(60_exceptions.md R212). The conditions read `SP`, `I` and parameters, which the common part does not write. -/
def completeUnless (i : Instr) (cause : Option FaultCause) (token : Token) (effect : State → State)
    (s : State) : Result :=
  match cause with
  | some c => .next (s.raise c (some (encode i)))
  | none => complete i token effect s

/-- The skip: `PC <- (PC + 2) mod 65536` when the condition holds (42_skips.md). -/
def State.skipIf (s : State) (cond : Bool) : State := if cond then { s with pc := s.pc + 2#16 } else s

end Sys2Proof.Machine
end

