-- ==== Sys2Proof/Machine/Operands.lean ====
section
/-! DEFINITION. Operand forms (30_encoding.md R82): the 12-bit address as a 16-bit value, the bytes addressed
by `I`, the pixels of a sprite, the decimal digits of a byte. Register and immediate operands are `State.reg` and
the constructor's own byte. -/

namespace Sys2Proof.Machine

/-- `nnn`, zero-extended to 16 bits (30_encoding.md R82). -/
def addrOperand (nnn : Addr12) : Word := nnn.setWidth 16

/-- The effective address `I + k`, an unbounded natural (20_memory.md R64). -/
def State.effAddr (s : State) (k : Nat) : Nat := s.i.toNat + k

/-- The fault of an access to `count` bytes at `I` (60_exceptions.md R214). -/
def State.dataFault (s : State) (count : Nat) : Option FaultCause := rangeFault (s.effAddr 0) count

/-- The number of registers Fx55 and Fx65 move: `x + 1` (47_misc.md R196, R197). -/
def regCount (x : Reg) : Nat := x.val + 1

/-- Hundreds, tens, units (47_misc.md R195). -/
def decimalDigits (b : Byte) : List Byte :=
  [BitVec.ofNat 8 (b.toNat / 100), BitVec.ofNat 8 (b.toNat / 10 % 10), BitVec.ofNat 8 (b.toNat % 10)]

/-- The column of a sprite's bit `b` (7 the leftmost) drawn at `vx` (45_draw.md R172). -/
def spriteCol (vx : Byte) (b : Nat) : Fin 64 := Fin.ofNat 64 (vx.toNat + (7 - b))

/-- The row of a sprite's row `r` drawn at `vy` (45_draw.md R172). -/
def spriteRow (vy : Byte) (r : Nat) : Fin 32 := Fin.ofNat 32 (vy.toNat + r)

/-- The sprite of `n` rows at `I` (45_draw.md R171). -/
def State.sprite (s : State) (n : Fin 16) : List Byte := s.mem.readList (s.effAddr 0) n.val

end Sys2Proof.Machine
end

