-- ==== Sys2Proof/Machine/Flags.lean ====
section
/-! DEFINITION. Every value an instruction writes to `VF` as a flag (10_state.md R22). -/

namespace Sys2Proof.Machine

/-- A condition as the flag's value, 1 or 0. -/
def flagByte (cond : Bool) : Byte := if cond then 1#8 else 0#8

/-- The flag of 8xy4, 8xy5, 8xy7 under `FLAG_MODE` (44_alu.md R151); `old` is `V[15]` before. -/
def aluFlag (mode : FlagMode) (cond : Bool) (old : Byte) : Byte :=
  match mode with
  | .symmetric => flagByte cond
  | .referenceAsymmetric => if cond then 1#8 else old

/-- `a + b > 255` (44_alu.md R156). -/
def carryCond (a b : Byte) : Bool := decide (255 < a.toNat + b.toNat)

/-- `a > b`, strictly (44_alu.md R157; R159 with the operands exchanged; D17). -/
def greaterCond (a b : Byte) : Bool := decide (b.toNat < a.toNat)

/-- The flag of 8xy6: `a[0]` (44_alu.md R158). -/
def shrFlag (a : Byte) : Byte := a &&& 1#8

/-- The flag of 8xyE under `SHL_FLAG` (44_alu.md R160). -/
def shlFlag (mode : ShlFlag) (a : Byte) : Byte :=
  match mode with
  | .nonZero => flagByte (decide (a ≠ 0#8))
  | .highBit => a >>> 7

/-- The flag of Fx1E under `FX1E_VF_ELSE` (47_misc.md R193); `sum` is the unbounded sum, `old` is `V[15]` before. -/
def addIFlag (mode : Fx1eVfElse) (sum : Nat) (old : Byte) : Byte :=
  if 0xFFF < sum then 1#8
  else
    match mode with
    | .unchanged => old
    | .clear => 0#8

end Sys2Proof.Machine
end

