-- ==== Sys2Proof/Machine/Alu.lean ====
section
/-! DEFINITION. The ALU family 8xy_ (spec/44_alu.md): `a` is `V[x]`, `b` is `V[y]`, both read before any write
(R150). -/

namespace Sys2Proof.Machine

/-- 8xy0 (R152). -/
def execLdReg (x y : Reg) (s : State) : Result :=
  complete (.ldReg x y) .ldReg (fun d => d.setReg x (d.reg y)) s

/-- 8xy1: no flag (R153). -/
def execOrReg (x y : Reg) (s : State) : Result :=
  complete (.orReg x y) .or (fun d => d.setReg x (d.reg x ||| d.reg y)) s

/-- 8xy2: no flag (R154). -/
def execAndReg (x y : Reg) (s : State) : Result :=
  complete (.andReg x y) .and (fun d => d.setReg x (d.reg x &&& d.reg y)) s

/-- 8xy3: no flag (R155). -/
def execXorReg (x y : Reg) (s : State) : Result :=
  complete (.xorReg x y) .xor (fun d => d.setReg x (d.reg x ^^^ d.reg y)) s

/-- 8xy4 (R156). -/
def execAddReg (x y : Reg) (s : State) : Result :=
  complete (.addReg x y) .addReg
    (fun d => d.setFlagThenReg
      (aluFlag d.config.flagMode (carryCond (d.reg x) (d.reg y)) (d.reg regVF)) x (d.reg x + d.reg y)) s

/-- 8xy5 (R157). -/
def execSub (x y : Reg) (s : State) : Result :=
  complete (.sub x y) .sub
    (fun d => d.setFlagThenReg
      (aluFlag d.config.flagMode (greaterCond (d.reg x) (d.reg y)) (d.reg regVF)) x (d.reg x - d.reg y)) s

/-- 8xy6: `y` is ignored (R158). -/
def execShr (x y : Reg) (s : State) : Result :=
  complete (.shr x y) .shr (fun d => d.setFlagThenReg (shrFlag (d.reg x)) x (d.reg x >>> 1)) s

/-- 8xy7 (R159). -/
def execSubn (x y : Reg) (s : State) : Result :=
  complete (.subn x y) .subn
    (fun d => d.setFlagThenReg
      (aluFlag d.config.flagMode (greaterCond (d.reg y) (d.reg x)) (d.reg regVF)) x (d.reg y - d.reg x)) s

/-- 8xyE: `y` is ignored (R160). -/
def execShl (x y : Reg) (s : State) : Result :=
  complete (.shl x y) .shl
    (fun d => d.setFlagThenReg (shlFlag d.config.shlFlag (d.reg x)) x (d.reg x <<< 1)) s

end Sys2Proof.Machine
end

