-- ==== Sys2Proof/Machine/Draw.lean ====
section
/-! DEFINITION. Dxyn, the sprite blit (spec/45_draw.md R170 to R176), in the order of R172: rows from the top,
bits from 7 down, each 1 bit flipping its cell and raising the collision flag when the cell was set. -/

namespace Sys2Proof.Machine

/-- The framebuffer and the collision flag while a blit runs. -/
structure Blit where
  fb  : Framebuffer
  hit : Bool
  deriving DecidableEq, Repr

/-- One bit of a sprite row (R172). -/
def blitBit (row : Fin 32) (vx : Byte) (byte : Byte) (b : Nat) (acc : Blit) : Blit :=
  if byte.getLsbD b then
    let col := spriteCol vx b
    { fb := Framebuffer.flip acc.fb row col, hit := acc.hit || Framebuffer.cell acc.fb row col }
  else acc

/-- The bits of one row from number `k - 1` down to 0; the whole row is `k = 8` (R171, R172). -/
def blitRow (row : Fin 32) (vx : Byte) (byte : Byte) (k : Nat) (acc : Blit) : Blit :=
  match k with
  | 0 => acc
  | b + 1 => blitRow row vx byte b (blitBit row vx byte b acc)

/-- The rows of a sprite, the first one being row `r` (R172). -/
def blitRows (vx vy : Byte) (r : Nat) (bytes : List Byte) (acc : Blit) : Blit :=
  match bytes with
  | [] => acc
  | byte :: rest => blitRows vx vy (r + 1) rest (blitRow (spriteRow vy r) vx byte 8 acc)

/-- The effect of Dxyn on the dispatched state: `VF` is 0 unless a cell went from set to clear (R172, R173). -/
def State.blit (d : State) (x y : Reg) (n : Fin 16) : State :=
  let out := blitRows (d.reg x) (d.reg y) 0 (d.sprite n) { fb := d.fb, hit := false }
  { d with fb := out.fb, v := d.v.set regVF (flagByte out.hit) }

/-- Dxyn: `AddressOutOfRange` when a sprite byte lies above 0xFFF, else the blit (R171, R172). -/
def execDrw (x y : Reg) (n : Fin 16) (s : State) : Result :=
  completeUnless (.drw x y n) (s.dataFault n.val) .drw (fun d => d.blit x y n) s

end Sys2Proof.Machine
end

