-- ==== Sys2Proof/Machine/LoadAdd.lean ====
section
/-! DEFINITION. 6xnn, 7xnn, Annn, Cxnn (spec/43_load_add_random.md). -/

namespace Sys2Proof.Machine

/-- 6xnn (R140). -/
def execLdImm (x : Reg) (nn : Byte) (s : State) : Result :=
  complete (.ldImm x nn) .ldImm (fun d => d.setReg x nn) s

/-- 7xnn: modulo 256, no flag (R141). -/
def execAddImm (x : Reg) (nn : Byte) (s : State) : Result :=
  complete (.addImm x nn) .addImm (fun d => d.setReg x (d.reg x + nn)) s

/-- Annn (R142). -/
def execLdI (nnn : Addr12) (s : State) : Result :=
  complete (.ldI nnn) .ldI (fun d => { d with i := addrOperand nnn }) s

/-- Cxnn: the byte masked is the input `rnd` of this cycle (R143). -/
def execRnd (x : Reg) (nn : Byte) (s : State) : Result :=
  complete (.rnd x nn) .rnd (fun d => d.setReg x (s.rnd &&& nn)) s

end Sys2Proof.Machine
end

