-- ==== Sys2Proof/Machine/Misc.lean ====
section
/-! DEFINITION. Fx07, Fx15, Fx18, Fx1E, Fx33, Fx55, Fx65 (spec/47_misc.md). -/

namespace Sys2Proof.Machine

/-- Fx07: `TD` as already decremented in this cycle (R190). -/
def execLdVxDt (x : Reg) (s : State) : Result :=
  complete (.ldVxDt x) .ldVxDt (fun d => d.setReg x d.td) s

/-- Fx15: the write comes after this cycle's decrement (R191). -/
def execLdDtVx (x : Reg) (s : State) : Result :=
  complete (.ldDtVx x) .ldDtVx (fun d => { d with td := d.reg x }) s

/-- Fx18 (R192). -/
def execLdStVx (x : Reg) (s : State) : Result :=
  complete (.ldStVx x) .ldStVx (fun d => { d with ts := d.reg x }) s

/-- Fx1E: the sum modulo 65536, the flag from the unbounded sum (R193). -/
def execAddI (x : Reg) (s : State) : Result :=
  complete (.addI x) .addI
    (fun d =>
      let sum := d.i.toNat + (d.reg x).toNat
      { d.setReg regVF (addIFlag d.config.fx1eVfElse sum (d.reg regVF)) with i := BitVec.ofNat 16 sum }) s

/-- Fx33: three digits at `I`, `I + 1`, `I + 2` (R195). -/
def execBcd (x : Reg) (s : State) : Result :=
  completeUnless (.bcd x) (s.dataFault 3) .bcd
    (fun d => d.storeBytes (d.effAddr 0) (decimalDigits (d.reg x))) s

/-- Fx55: `V[0..x]` to memory, `I` unchanged (R196). -/
def execStore (x : Reg) (s : State) : Result :=
  completeUnless (.store x) (s.dataFault (regCount x)) .store
    (fun d => d.storeBytes (d.effAddr 0) (d.firstRegs (regCount x))) s

/-- Fx65: memory to `V[0..x]`, `I` unchanged (R197). -/
def execLoad (x : Reg) (s : State) : Result :=
  completeUnless (.load x) (s.dataFault (regCount x)) .load
    (fun d => d.setRegsFrom 0 (d.mem.readList (d.effAddr 0) (regCount x))) s

end Sys2Proof.Machine
end

