-- ==== Sys2Proof/Machine/Skips.lean ====
section
/-! DEFINITION. 3xnn, 4xnn, 5xy0, 9xy0 (spec/42_skips.md). -/

namespace Sys2Proof.Machine

/-- 3xnn (R130). -/
def execSeImm (x : Reg) (nn : Byte) (s : State) : Result :=
  complete (.seImm x nn) .seImm (fun d => d.skipIf (decide (d.reg x = nn))) s

/-- 4xnn (R131). -/
def execSneImm (x : Reg) (nn : Byte) (s : State) : Result :=
  complete (.sneImm x nn) .sneImm (fun d => d.skipIf (decide (d.reg x ≠ nn))) s

/-- 5xy0 (R132). -/
def execSeReg (x y : Reg) (s : State) : Result :=
  complete (.seReg x y) .seReg (fun d => d.skipIf (decide (d.reg x = d.reg y))) s

/-- 9xy0 (R133). -/
def execSneReg (x y : Reg) (s : State) : Result :=
  complete (.sneReg x y) .sneReg (fun d => d.skipIf (decide (d.reg x ≠ d.reg y))) s

end Sys2Proof.Machine
end

