-- ==== Sys2Proof/Machine/SystemFlow.lean ====
section
/-! DEFINITION. 00E0, 00EE, 1nnn, 2nnn, Bnnn (spec/41_system_and_flow.md). -/

namespace Sys2Proof.Machine

/-- 00E0 (R120). -/
def execCls (s : State) : Result :=
  complete .cls .cls (fun d => { d with fb := Framebuffer.clear }) s

/-- 00EE: `StackUnderflow` when `SP = 0`, else pop (R121). -/
def execRet (s : State) : Result :=
  completeUnless .ret (if s.sp = 0#8 then some .stackUnderflow else none) .ret State.pop s

/-- 1nnn: the token is `JP_SELF` when the target is the instruction's own address (R122). -/
def execJp (nnn : Addr12) (s : State) : Result :=
  complete (.jp nnn) (if addrOperand nnn = s.pc then .jpSelf else .jp)
    (fun d => { d with pc := addrOperand nnn }) s

/-- 2nnn: `StackOverflow` when every slot is in use, else push and jump (R123). -/
def execCall (nnn : Addr12) (s : State) : Result :=
  completeUnless (.call nnn) (if s.config.stackDepth ≤ s.sp.toNat then some .stackOverflow else none) .call
    (fun d => { d.push with pc := addrOperand nnn }) s

/-- Bnnn: the register is always `V[0]` (R124). -/
def execJpV0 (nnn : Addr12) (s : State) : Result :=
  complete (.jpV0 nnn) .jpV0 (fun d => { d with pc := addrOperand nnn + (d.reg 0).setWidth 16 }) s

end Sys2Proof.Machine
end

