-- ==== Sys2Proof/Machine/Unimplemented.lean ====
section
/-! DEFINITION. The words that execute with no effect of their own and report `UNKNOWN`
(spec/40_cycle_and_dispatch.md R107): every unknown word, and the recognised Ex9E, ExA1, Fx0A
(spec/46_keys.md R180 to R182) and Fx29 (spec/47_misc.md R194). None reads `Keys` or `V[x]`, skips or waits. -/

namespace Sys2Proof.Machine

/-- Ex9E (46_keys.md R180). -/
def execKeyPressedSkip (x : Reg) (s : State) : Result :=
  complete (.keyPressedSkip x) .unknown (fun d => d) s

/-- ExA1 (46_keys.md R181). -/
def execKeyNotPressedSkip (x : Reg) (s : State) : Result :=
  complete (.keyNotPressedSkip x) .unknown (fun d => d) s

/-- Fx0A (46_keys.md R182). -/
def execWaitKey (x : Reg) (s : State) : Result :=
  complete (.waitKey x) .unknown (fun d => d) s

/-- Fx29 (47_misc.md R194). -/
def execFontAddr (x : Reg) (s : State) : Result :=
  complete (.fontAddr x) .unknown (fun d => d) s

/-- Every other unknown word (40_cycle_and_dispatch.md R107). -/
def execUnknown (op : Word) (s : State) : Result :=
  complete (.unknown op) .unknown (fun d => d) s

end Sys2Proof.Machine
end

