-- ==== Sys2Proof/Machine/Step.lean ====
section
/-! DEFINITION. One step of the core: `Step(rnd)` of spec/40_cycle_and_dispatch.md R100, the input `rnd` being
`s.rnd`. -/

namespace Sys2Proof.Machine

/-- A faulted machine has no enabled step (R108); a fetch that faults records it with no word (R101); otherwise
the fetched word's instruction runs. -/
def step (s : State) : Host.Outcome State Fault Refusal :=
  match s.fault with
  | some r => .fault (.stuck r)
  | none =>
    match s.fetch with
    | .error c => .next (s.raise c none)
    | .ok op => exec (decode op) s

/-- `s` with the instruction word `w` stored at `PC` and `PC + 1`, big-endian (20_memory.md R61), where `step`
fetches. It stands for the host's `Load` (log 6). -/
def State.withFetchWord (s : State) (nbits w : Nat) : State :=
  { s with mem := s.mem.writeList s.pc.toNat (bytesOfWord (tableWord nbits w)) }

end Sys2Proof.Machine
end

