-- ==== Sys2Proof/Machine/External.lean ====
section
/-! DEFINITION. What the host can do to the machine between cycles (spec/70_reset_and_hazards.md R240 to R252). -/

namespace Sys2Proof.Machine

/-- `LOW_MEM_INIT`: the power-on contents of 0x000 to 0x1FF, an open parameter (10_state.md R33). -/
abbrev LowMemInit := Vector Byte 512

/-- The spec's simulation default of `LOW_MEM_INIT` (10_state.md R33). -/
def LowMemInit.zeros : LowMemInit := Vector.replicate 512 0#8

/-- `PowerOn` (R240): the state it creates from the open parameters. -/
def State.powerOn (config : Config) (low : LowMemInit) : State :=
  { State.reset with
    stack := List.replicate config.stackDepth 0#16
    mem := Memory.writeList [] 0 low.toList
    config := config }

/-- What a host operation reports: `Load` can fail (R243; 60_exceptions.md R217), the others cannot. -/
inductive HostResult where
  | done
  /-- The image does not fit; nothing was written. -/
  | loadOutOfBounds (len : Nat)
  deriving DecidableEq, Repr

/-- `Load(image)` (R242 to R244). -/
def State.load (s : State) (image : List Byte) : State × HostResult :=
  if maxImage < image.length then (s, .loadOutOfBounds image.length)
  else
    ({ s with
       v := Vector.replicate 16 0#8
       i := 0#16
       pc := BitVec.ofNat 16 progBase
       mem := s.mem.writeList progBase image }, .done)

/-- `KeyPress(k)` (R246). -/
def State.keyPress (s : State) (k : Fin 16) : State := s.setKey k true

/-- `KeyRelease(k)` (R247). -/
def State.keyRelease (s : State) (k : Fin 16) : State := s.setKey k false

/-- The host's call of `Step(rnd)`: on a machine with no enabled step it has no effect
(40_cycle_and_dispatch.md R100, R108). -/
def State.hostStep (s : State) (rnd : Byte) : State :=
  match step { s with rnd := rnd } with
  | .next t => t
  | .fault _ => s
  | .refused _ => s

/-- The operations the host performs on a machine that has been powered on (R252); a key is 4 bits (R248). -/
inductive HostOp where
  | reset
  | load (image : List Byte)
  | step (rnd : Byte)
  | keyPress (k : Fin 16)
  | keyRelease (k : Fin 16)
  deriving DecidableEq, Repr

/-- One host operation, performed between cycles (R255). -/
def State.perform (s : State) (op : HostOp) : State × HostResult :=
  match op with
  | .reset => (s.fullReset, .done)
  | .load image => s.load image
  | .step rnd => (s.hostStep rnd, .done)
  | .keyPress k => (s.keyPress k, .done)
  | .keyRelease k => (s.keyRelease k, .done)

/-- Operations performed one at a time, in order (R252). -/
def State.performAll (s : State) (ops : List HostOp) : State :=
  match ops with
  | [] => s
  | op :: rest => (s.perform op).1.performAll rest

/-- The launch sequence: `Reset`, then `Load(image)` (R245). -/
def State.launch (s : State) (image : List Byte) : State × HostResult := s.fullReset.load image

/-- What `Observe` shows (R250, D33): everything the spec's state holds. -/
structure Observation where
  v         : Vector Byte 16
  i         : Word
  sp        : BitVec 8
  td        : Byte
  ts        : Byte
  pc        : Word
  lastClass : Token
  lastOp    : Word
  fb        : Framebuffer
  fault     : Option FaultRecord
  keys      : Vector Bool 16
  stack     : List Word
  mem       : Memory
  deriving DecidableEq, Repr

/-- `Observe` reads and changes nothing (R250). -/
def State.observe (s : State) : Observation :=
  { v := s.v, i := s.i, sp := s.sp, td := s.td, ts := s.ts, pc := s.pc, lastClass := s.lastClass,
    lastOp := s.lastOp, fb := s.fb, fault := s.fault, keys := s.keys, stack := s.stack, mem := s.mem }

/-- The numeric codes the spec attaches to causes for convenience (60_exceptions.md R210, D8). -/
def FaultCause.code (c : FaultCause) : Nat :=
  match c with
  | .addressOutOfRange _ => 1
  | .stackOverflow => 2
  | .stackUnderflow => 3

/-- The code of `LoadOutOfBounds` (60_exceptions.md R210). -/
def HostResult.code (r : HostResult) : Option Nat :=
  match r with
  | .done => none
  | .loadOutOfBounds _ => some 4

end Sys2Proof.Machine
end

