-- ==== Sys2Proof/Safety.lean ====
section
/-! DEFINITION. The terms claims are stated in: what a faulted and a finished machine are, the invariants of the
machine, what an instruction leaves unchanged, and the spec's tables of tokens and of written state. -/

namespace Sys2Proof.Machine

/-! Runs. -/

/-- A fault is recorded: the machine is stuck, never finished (60_exceptions.md R213). -/
def State.faulted (s : State) : Bool := s.fault.isSome

/-- The end of a program's run: the cycle reported `JP_SELF` (70_reset_and_hazards.md R251). -/
def State.finished (s : State) : Bool := s.fault.isNone && decide (s.lastClass = .jpSelf)

/-! Invariants. -/

/-- What every reachable state has: parameters in range (00_scope.md R6), a stack of `STACK_DEPTH` slots, `SP`
between 0 and the depth (10_state.md R26), every slot at index `SP` or above 0 (R29), memory in canonical form. -/
structure State.Inv (s : State) : Prop where
  configWf  : s.config.wf = true
  stackLen  : s.stack.length = s.config.stackDepth
  spLe      : s.sp.toNat ≤ s.config.stackDepth
  freeZero  : ∀ k, s.sp.toNat ≤ k → s.slot k = 0#16
  memWf     : s.mem.wf = true

/-- How far `PC` can go: "the largest value it can ever hold" is that of Bnnn (10_state.md R25); a return address
is at most 0x1000, because the fetch of the call needs `PC` at most 0xFFE. -/
structure State.PcBounded (s : State) : Prop where
  pcLe   : s.pc.toNat ≤ 0x10FE
  slotLe : ∀ k, (s.slot k).toNat ≤ 0x1000

/-! The common part of a cycle that does not fault. -/

/-- What a completed cycle of `i` reports, and what no instruction touches (R104; 10_state.md R41). -/
structure Reports (i : Instr) (token : Token) (s t : State) : Prop where
  lastOp    : t.lastOp = encode i
  lastClass : t.lastClass = token
  fault     : t.fault = s.fault
  keys      : t.keys = s.keys
  config    : t.config = s.config

/-- Both timers one lower, floor 0 (R103): subtraction of naturals. -/
structure Ticks (s t : State) : Prop where
  td : t.td.toNat = s.td.toNat - 1
  ts : t.ts.toNat = s.ts.toNat - 1

/-- `PC` is `k` further, modulo 65536 (R102; 10_state.md R25). -/
def Advances (s t : State) (k : Nat) : Prop := t.pc.toNat = (s.pc.toNat + k) % 65536

/-- A completed cycle that goes on to the next word. -/
structure Sequential (i : Instr) (token : Token) (s t : State) : Prop where
  reports  : Reports i token s t
  advances : Advances s t 2
  ticks    : Ticks s t

/-! Frames. -/

/-- Every general register but those listed keeps its value. -/
def RegsKeptBut (s t : State) (written : List Reg) : Prop := ∀ r, r ∉ written → t.reg r = s.reg r

/-- Every byte of memory keeps its value. -/
def MemKept (s t : State) : Prop := ∀ a, t.mem.read a = s.mem.read a

/-- Every byte of memory outside `base, ..., base + count - 1` keeps its value. -/
def MemKeptOutside (s t : State) (base count : Nat) : Prop :=
  ∀ a, a < base ∨ base + count ≤ a → t.mem.read a = s.mem.read a

/-- Every framebuffer cell keeps its value. -/
def FbKept (s t : State) : Prop := ∀ row col, t.cell row col = s.cell row col

/-- The call stack and its pointer keep their values. -/
structure StackKept (s t : State) : Prop where
  sp    : t.sp = s.sp
  stack : t.stack = s.stack

/-- The frame of an instruction that writes the listed general registers and nothing else of its own. -/
structure RegisterFrame (s t : State) (written : List Reg) : Prop where
  regs  : RegsKeptBut s t written
  i     : t.i = s.i
  stack : StackKept s t
  mem   : MemKept s t
  fb    : FbKept s t

/-! Sprites (45_draw.md R172). -/

/-- The sprite of `n` rows at `I`, drawn at (`V[x]`, `V[y]`), has a 1 bit on the cell. -/
def Covered (s : State) (x y : Reg) (n : Fin 16) (row : Fin 32) (col : Fin 64) : Prop :=
  ∃ r b, r < n.val ∧ b < 8 ∧ (s.mem.read (s.effAddr r)).getLsbD b = true ∧
    row.val = ((s.reg y).toNat + r) % 32 ∧ col.val = ((s.reg x).toNat + (7 - b)) % 64

/-! Tables of the spec. -/

/-- The token each instruction reports (10_state.md R37); `pc0` is the instruction's address. -/
def reportedToken (i : Instr) (pc0 : Nat) : Token :=
  match i with
  | .cls => .cls
  | .ret => .ret
  | .jp nnn => if nnn.toNat = pc0 then .jpSelf else .jp
  | .call _ => .call
  | .seImm _ _ => .seImm
  | .sneImm _ _ => .sneImm
  | .seReg _ _ => .seReg
  | .ldImm _ _ => .ldImm
  | .addImm _ _ => .addImm
  | .ldReg _ _ => .ldReg
  | .orReg _ _ => .or
  | .andReg _ _ => .and
  | .xorReg _ _ => .xor
  | .addReg _ _ => .addReg
  | .sub _ _ => .sub
  | .shr _ _ => .shr
  | .subn _ _ => .subn
  | .shl _ _ => .shl
  | .sneReg _ _ => .sneReg
  | .ldI _ => .ldI
  | .jpV0 _ => .jpV0
  | .rnd _ _ => .rnd
  | .drw _ _ _ => .drw
  | .keyPressedSkip _ => .unknown
  | .keyNotPressedSkip _ => .unknown
  | .ldVxDt _ => .ldVxDt
  | .waitKey _ => .unknown
  | .ldDtVx _ => .ldDtVx
  | .ldStVx _ => .ldStVx
  | .addI _ => .addI
  | .fontAddr _ => .unknown
  | .bcd _ => .bcd
  | .store _ => .store
  | .load _ => .load
  | .unknown _ => .unknown

/-- The general registers each instruction may write (10_state.md R22, R41). -/
def writesReg (i : Instr) (r : Reg) : Prop :=
  match i with
  | .ldImm x _ => r = x
  | .addImm x _ => r = x
  | .ldReg x _ => r = x
  | .orReg x _ => r = x
  | .andReg x _ => r = x
  | .xorReg x _ => r = x
  | .addReg x _ => r = x ∨ r = 15
  | .sub x _ => r = x ∨ r = 15
  | .shr x _ => r = x ∨ r = 15
  | .subn x _ => r = x ∨ r = 15
  | .shl x _ => r = x ∨ r = 15
  | .rnd x _ => r = x
  | .drw _ _ _ => r = 15
  | .ldVxDt x => r = x
  | .addI _ => r = 15
  | .load x => r ≤ x
  | .cls => False
  | .ret => False
  | .jp _ => False
  | .call _ => False
  | .seImm _ _ => False
  | .sneImm _ _ => False
  | .seReg _ _ => False
  | .sneReg _ _ => False
  | .ldI _ => False
  | .jpV0 _ => False
  | .keyPressedSkip _ => False
  | .keyNotPressedSkip _ => False
  | .waitKey _ => False
  | .ldDtVx _ => False
  | .ldStVx _ => False
  | .fontAddr _ => False
  | .bcd _ => False
  | .store _ => False
  | .unknown _ => False

/-- The instructions that may write `PC` after the fetch's advance (10_state.md R41). -/
def writesPc (i : Instr) : Prop :=
  match i with
  | .ret => True
  | .jp _ => True
  | .call _ => True
  | .seImm _ _ => True
  | .sneImm _ _ => True
  | .seReg _ _ => True
  | .sneReg _ _ => True
  | .jpV0 _ => True
  | .cls => False
  | .ldImm _ _ => False
  | .addImm _ _ => False
  | .ldReg _ _ => False
  | .orReg _ _ => False
  | .andReg _ _ => False
  | .xorReg _ _ => False
  | .addReg _ _ => False
  | .sub _ _ => False
  | .shr _ _ => False
  | .subn _ _ => False
  | .shl _ _ => False
  | .ldI _ => False
  | .rnd _ _ => False
  | .drw _ _ _ => False
  | .keyPressedSkip _ => False
  | .keyNotPressedSkip _ => False
  | .ldVxDt _ => False
  | .waitKey _ => False
  | .ldDtVx _ => False
  | .ldStVx _ => False
  | .addI _ => False
  | .fontAddr _ => False
  | .bcd _ => False
  | .store _ => False
  | .load _ => False
  | .unknown _ => False

/-! Comparisons of states. -/

/-- The state with its key flags replaced (46_keys.md R183). -/
def State.withKeys (s : State) (keys : Vector Bool 16) : State := { s with keys := keys }

/-- The same for an outcome: the next state's key flags replaced, a stop as it is. -/
def Result.withKeys (r : Result) (keys : Vector Bool 16) : Result :=
  match r with
  | .next t => .next (t.withKeys keys)
  | .fault f => .fault f
  | .refused q => .refused q

/-- A key event, the one host operation that writes `Keys` alone (70_reset_and_hazards.md R246, R247). -/
def HostOp.isKeyEvent (op : HostOp) : Bool :=
  match op with
  | .keyPress _ => true
  | .keyRelease _ => true
  | .reset => false
  | .load _ => false
  | .step _ => false

end Sys2Proof.Machine
end

