-- ==== Sys2Proof/Certificates/Slice0/Obligations.lean ====
section
/-! DEFINITION. The statements for the provers, one `def Obligations.<Name> : Prop` each. -/

open Sys2Proof Sys2Proof.Machine

/-! ## Encoding -/

/-- A few words of the opcode table, one or more of each format, written out from 30_encoding.md R84 to R89. That
E09E is the word of Ex9E is presumed: R89 marks its low byte 9E as general knowledge, not in the source (log 8). -/
def Obligations.KnownWordsDecode : Prop :=
  decode 0x00E0#16 = .cls ∧ decode 0x00EE#16 = .ret ∧ decode 0x120C#16 = .jp 0x20C#12 ∧
  decode 0x220E#16 = .call 0x20E#12 ∧ decode 0x3100#16 = .seImm 1 0x00#8 ∧ decode 0x9340#16 = .sneReg 3 4 ∧
  decode 0x8015#16 = .sub 0 1 ∧ decode 0x8276#16 = .shr 2 7 ∧ decode 0xD012#16 = .drw 0 1 2 ∧
  decode 0xF155#16 = .store 1 ∧ decode 0xE09E#16 = .keyPressedSkip 0 ∧ decode 0x8018#16 = .unknown 0x8018#16

/-- The fields of a word are unsigned numbers taken from fixed bit positions (30_encoding.md R82). -/
def Obligations.FieldsAreUnsignedDigits : Prop :=
  ∀ op : Word,
    (fieldX op).val = op.toNat / 256 % 16 ∧ (fieldY op).val = op.toNat / 16 % 16 ∧ (fieldN op).val = op.toNat % 16 ∧
    (fieldNn op).toNat = op.toNat % 256 ∧ (fieldNnn op).toNat = op.toNat % 4096 ∧
    (addrOperand (fieldNnn op)).toNat = op.toNat % 4096

/-- Decoding the word of a well-formed instruction gives the instruction back, for every operand value. -/
def Obligations.DecodeOfEncode : Prop :=
  ∀ i : Instr, i.wellFormed = true → decode (encode i) = i

/-- Every word is the word of the well-formed instruction it decodes to: no bit is dropped, no word refused. -/
def Obligations.EncodeOfDecode : Prop :=
  ∀ op : Word, encode (decode op) = op ∧ (decode op).wellFormed = true

/-- The decoder picks the one row of the opcode table whose match and mask the word meets, and `unknown` when
there is none (30_encoding.md R83). -/
def Obligations.DecodeSelectsTheTableRow : Prop :=
  ∀ op : Word,
    (∀ row ∈ opcodeRows, op &&& row.mask = row.pattern ↔ (decode op).row = row) ∧
    ((∀ row ∈ opcodeRows, op &&& row.mask ≠ row.pattern) ↔ decode op = .unknown op)

/-- A cycle reports `UNKNOWN` exactly for the words of 30_encoding.md R90's list. -/
def Obligations.UnknownReportedExactlyForTheListedWords : Prop :=
  ∀ (s t : State) (op : Word), s.fault = none → s.fetch = .ok op → step s = .next t → t.fault = none →
    (t.lastClass = .unknown ↔ unknownWord op = true)

/-! ## The step -/

/-- When the two bytes at `PC` make the word `op`, a step of an unfaulted machine is `exec` of the decoded
instruction; the step adds nothing around it (40_cycle_and_dispatch.md R100, R101). -/
def Obligations.StepRunsTheFetchedInstruction : Prop :=
  ∀ (s : State) (op : Word), s.fault = none → s.pc.toNat ≤ 0xFFE →
    op.toNat = (s.mem.read s.pc.toNat).toNat * 256 + (s.mem.read (s.pc.toNat + 1)).toNat →
    step s = exec (decode op) s

/-- A word placed where `step` fetches is what the next step runs; the placing is the model's own (log 6). -/
def Obligations.PlacedWordRunsNext : Prop :=
  ∀ (s : State) (op : Word), s.fault = none → s.mem.wf = true → s.pc.toNat ≤ 0xFFE →
    step (s.withFetchWord 16 op.toNat) = exec (decode op) (s.withFetchWord 16 op.toNat)

/-- The fetch makes its word of the bytes at `PC` and `PC + 1`, whatever the parity of `PC`, and faults exactly when
`PC > 0xFFE`, with no word in the record (40_cycle_and_dispatch.md R101). The fault, and that it changes nothing but
the record, are the spec's own decisions (20_memory.md R63, D6; 60_exceptions.md R212, D7). -/
def Obligations.FetchFault : Prop :=
  ∀ s : State, s.fault = none →
    (s.pc.toNat = 0xFFF →
      step s = .next { s with fault := some ⟨.addressOutOfRange (s.pc.toNat + 1), s.pc, none⟩ }) ∧
    (0xFFF < s.pc.toNat →
      step s = .next { s with fault := some ⟨.addressOutOfRange s.pc.toNat, s.pc, none⟩ }) ∧
    (s.pc.toNat ≤ 0xFFE → ∃ op, s.fetch = .ok op ∧
      op.toNat = (s.mem.read s.pc.toNat).toNat * 256 + (s.mem.read (s.pc.toNat + 1)).toNat)

/-- A faulted machine has no enabled step, the host's `Step` changes nothing of it, `Load` and key events leave
the record, and `Reset` and `PowerOn` clear it (40_cycle_and_dispatch.md R108).
That `step` answers the stop `stuck` is the model's form of "no enabled step" (log 4). -/
def Obligations.FaultedMachineDoesNotStep : Prop :=
  ∀ (s : State) (r : FaultRecord), s.fault = some r →
    step s = .fault (.stuck r) ∧
    (∀ rnd, s.perform (.step rnd) = (s, .done)) ∧
    (∀ image, (s.perform (.load image)).1.fault = some r) ∧
    (∀ k, (s.perform (.keyPress k)).1.fault = some r ∧ (s.perform (.keyRelease k)).1.fault = some r) ∧
    (s.perform .reset).1.fault = none ∧
    (∀ c low, (State.powerOn c low).fault = none)

/-- Every step of an unfaulted machine completes (70_reset_and_hazards.md R259). -/
def Obligations.UnfaultedStepCompletes : Prop :=
  ∀ s : State, s.fault = none → ∃ t, step s = .next t

/-- A cycle that raises a fault commits nothing: the only write is the record, with the instruction's address
and its word, absent when the fetch faulted (60_exceptions.md R212). -/
def Obligations.FaultsCommitNothing : Prop :=
  ∀ (s t : State) (r : FaultRecord), s.fault = none → step s = .next t → t.fault = some r →
    t = { s with fault := some r } ∧ r.pc = s.pc ∧
    (∀ op, s.fetch = .ok op → r.op = some op) ∧ (∀ c, s.fetch = .error c → r.op = none ∧ r.cause = c)

/-- Which cycles fault after the fetch, and with which cause (60_exceptions.md R214, R215, R216, R218). -/
def Obligations.FaultConditions : Prop :=
  ∀ (s t : State) (op : Word), s.fault = none → s.fetch = .ok op → step s = .next t →
    ((∃ r, t.fault = some r ∧ r.cause = .stackOverflow) ↔
      (∃ nnn, decode op = .call nnn) ∧ s.config.stackDepth ≤ s.sp.toNat) ∧
    ((∃ r, t.fault = some r ∧ r.cause = .stackUnderflow) ↔ decode op = .ret ∧ s.sp.toNat = 0) ∧
    (∀ addr, (∃ r, t.fault = some r ∧ r.cause = .addressOutOfRange addr) ↔
      addr = max s.i.toNat 0x1000 ∧
      ((∃ x y n, decode op = .drw x y n ∧ 0 < n.val ∧ 0xFFF < s.i.toNat + n.val - 1) ∨
       (∃ x, decode op = .bcd x ∧ 0xFFF < s.i.toNat + 2) ∨
       (∃ x, decode op = .store x ∧ 0xFFF < s.i.toNat + x.val) ∨
       (∃ x, decode op = .load x ∧ 0xFFF < s.i.toNat + x.val)))

/-- Every completed cycle writes `lastOp` with the fetched word and `lastClass` with the token of the table of
10_state.md R37 (40_cycle_and_dispatch.md R104). -/
def Obligations.LastOpAndTokenOfEveryCycle : Prop :=
  ∀ (s t : State) (op : Word), s.fault = none → s.fetch = .ok op → step s = .next t → t.fault = none →
    t.lastOp = op ∧ t.lastClass = reportedToken (decode op) s.pc.toNat

/-- Both timers are one lower after every completed cycle, floor 0, but for the timer Fx15 or Fx18 writes, which
holds `V[x]` (40_cycle_and_dispatch.md R103; 60_exceptions.md R221). -/
def Obligations.TimersCountCycles : Prop :=
  ∀ (s t : State) (op : Word), s.fault = none → s.fetch = .ok op → step s = .next t → t.fault = none →
    ((∀ x, decode op ≠ .ldDtVx x) → t.td.toNat = s.td.toNat - 1) ∧
    (∀ x, decode op = .ldDtVx x → t.td = s.reg x) ∧
    ((∀ x, decode op ≠ .ldStVx x) → t.ts.toNat = s.ts.toNat - 1) ∧
    (∀ x, decode op = .ldStVx x → t.ts = s.reg x)

/-- `PC` is 2 further after every completed cycle of an instruction that does not write it
(40_cycle_and_dispatch.md R102). -/
def Obligations.OtherInstructionsAdvanceByTwo : Prop :=
  ∀ (s t : State) (op : Word), s.fault = none → s.fetch = .ok op → step s = .next t → t.fault = none →
    ¬ writesPc (decode op) → t.pc.toNat = (s.pc.toNat + 2) % 65536

/-- The access matrix of 10_state.md R41: a step changes a piece of state only where its row allows it; no step
changes the key flags or the parameters. -/
def Obligations.OnlyListedInstructionsWrite : Prop :=
  ∀ (s t : State) (op : Word), s.fetch = .ok op → step s = .next t →
    (∀ r, t.reg r ≠ s.reg r → writesReg (decode op) r) ∧
    (t.i ≠ s.i → (∃ nnn, decode op = .ldI nnn) ∨ ∃ x, decode op = .addI x) ∧
    (t.sp ≠ s.sp ∨ t.stack ≠ s.stack → decode op = .ret ∨ ∃ nnn, decode op = .call nnn) ∧
    ((∃ a, t.mem.read a ≠ s.mem.read a) → (∃ x, decode op = .bcd x) ∨ ∃ x, decode op = .store x) ∧
    ((∃ row col, t.cell row col ≠ s.cell row col) → decode op = .cls ∨ ∃ x y n, decode op = .drw x y n) ∧
    t.keys = s.keys ∧ t.config = s.config

/-- A step that reports `JP_SELF` has reached a fixed point but for the timers and the random input: the next
step fetches the same word and reports `JP_SELF` again (41_system_and_flow.md R122).
The fields `rnd` and `draws` are the model's own (log 2). -/
def Obligations.JumpToSelfIsAFixedPoint : Prop :=
  ∀ s t : State, s.fault = none → step s = .next t → t.fault = none → t.lastClass = .jpSelf →
    ∃ u, step t = .next u ∧ Ticks t u ∧
      u = { t with td := u.td, ts := u.ts, rnd := u.rnd, draws := u.draws }

/-- The bytes Fx55 stores at the address of the next instruction are the next word fetched (20_memory.md R73). -/
def Obligations.StoredBytesAreFetchedNext : Prop :=
  ∀ (x : Reg) (s : State), s.fault = none → s.mem.wf = true → 1 ≤ x.val → s.i.toNat + x.val ≤ 0xFFF →
    s.i.toNat = s.pc.toNat + 2 →
    ∃ t, exec (.store x) s = .next t ∧ step t = exec (decode (wordOfBytes (s.reg 0) (s.reg 1))) t

/-! ## Invariants -/

/-- The state after `PowerOn` meets the invariant, for every setting of the parameters and of `LOW_MEM_INIT`, and
so does `State.reset`, with the defaults and zeros of logs 1 and 3. -/
def Obligations.PowerOnMeetsTheInvariants : Prop :=
  (∀ c low, c.wf = true → (State.powerOn c low).Inv ∧ (State.powerOn c low).PcBounded) ∧
  State.reset.Inv ∧ State.reset.PcBounded

/-- Every step keeps the invariant: parameters, stack length, `SP` in range, free slots 0, canonical memory
(10_state.md R26, R29). -/
def Obligations.StepKeepsTheInvariant : Prop :=
  ∀ s t : State, s.Inv → step s = .next t → t.Inv

/-- Every step keeps `PC` at most 0x10FE and every return address at most 0x1000 (10_state.md R25). -/
def Obligations.StepKeepsPcBounded : Prop :=
  ∀ s t : State, s.PcBounded → step s = .next t → t.PcBounded

/-- Every host operation keeps both invariants. -/
def Obligations.HostOperationsKeepTheInvariants : Prop :=
  ∀ (s : State) (op : HostOp), s.Inv → s.PcBounded → (s.perform op).1.Inv ∧ (s.perform op).1.PcBounded

/-! ## What cannot flow -/

/-- States that differ only in `Keys` step to states that differ only in `Keys` (46_keys.md R183). -/
def Obligations.KeysNeverInfluenceAStep : Prop :=
  ∀ (s : State) (keys : Vector Bool 16), step (s.withKeys keys) = Result.withKeys (step s) keys

/-- Over any sequence of host operations, leaving out the key events changes nothing but `Keys`
(46_keys.md R183; 70_reset_and_hazards.md R249). -/
def Obligations.KeyEventsCommuteWithRuns : Prop :=
  ∀ (s : State) (ops : List HostOp) (keys : Vector Bool 16),
    (s.performAll ops).withKeys keys = (s.performAll (ops.filter fun op => !op.isKeyEvent)).withKeys keys

/-- The input `rnd` of a cycle matters only when the word fetched is Cxnn (40_cycle_and_dispatch.md R109): for
every other word the host's `Step` gives the same observable state whatever byte it supplies. -/
def Obligations.RandomByteReachesOnlyRnd : Prop :=
  ∀ (s : State) (a b : Byte) (op : Word), s.fetch = .ok op → (∀ x nn, decode op ≠ .rnd x nn) →
    (s.hostStep a).observe = (s.hostStep b).observe

/-! ## System and flow -/

/-- 00E0 clears every cell and leaves all else, `VF` included (41_system_and_flow.md R120). -/
def Obligations.ClsClearsTheFramebuffer : Prop :=
  ∀ s : State, ∃ t, exec .cls s = .next t ∧ Sequential .cls .cls s t ∧
    (∀ row col, t.cell row col = false) ∧
    RegsKeptBut s t [] ∧ t.i = s.i ∧ StackKept s t ∧ MemKept s t

/-- 00EE with `SP` not 0 pops: `SP` one lower, `PC` from that slot, the slot cleared (41_system_and_flow.md R121).
With `SP` above the stack's length, which no run reaches, the slots are the model's choice (log 5). -/
def Obligations.RetPops : Prop :=
  ∀ s : State, 0 < s.sp.toNat →
    ∃ t, exec .ret s = .next t ∧ Reports .ret .ret s t ∧ Ticks s t ∧
      t.sp.toNat = s.sp.toNat - 1 ∧ t.pc = s.slot (s.sp.toNat - 1) ∧ t.slot (s.sp.toNat - 1) = 0#16 ∧
      (∀ k, k ≠ s.sp.toNat - 1 → t.slot k = s.slot k) ∧ t.stack.length = s.stack.length ∧
      RegsKeptBut s t [] ∧ t.i = s.i ∧ MemKept s t ∧ FbKept s t

/-- 00EE with `SP = 0` raises `StackUnderflow` and changes nothing else (60_exceptions.md R216, R212). -/
def Obligations.RetOnEmptyStackFaults : Prop :=
  ∀ s : State, s.sp.toNat = 0 →
    exec .ret s = .next { s with fault := some ⟨.stackUnderflow, s.pc, some 0x00EE#16⟩ }

/-- 1nnn jumps to `nnn`, odd or even, and reports `JP_SELF` exactly when `nnn` is its own address
(41_system_and_flow.md R122). -/
def Obligations.JumpGoesToItsTarget : Prop :=
  ∀ (nnn : Addr12) (s : State),
    ∃ t, exec (.jp nnn) s = .next t ∧
      Reports (.jp nnn) (if nnn.toNat = s.pc.toNat then .jpSelf else .jp) s t ∧ Ticks s t ∧
      t.pc.toNat = nnn.toNat ∧ RegisterFrame s t []

/-- 2nnn with a free slot stores the address of the next instruction at `SP`, raises `SP` once and jumps
(41_system_and_flow.md R123). -/
def Obligations.CallPushesAndJumps : Prop :=
  ∀ (nnn : Addr12) (s : State), s.sp.toNat < s.config.stackDepth → s.stack.length = s.config.stackDepth →
    s.config.stackDepth ≤ 255 →
    ∃ t, exec (.call nnn) s = .next t ∧ Reports (.call nnn) .call s t ∧ Ticks s t ∧
      (t.slot s.sp.toNat).toNat = (s.pc.toNat + 2) % 65536 ∧ (∀ k, k ≠ s.sp.toNat → t.slot k = s.slot k) ∧
      t.sp.toNat = s.sp.toNat + 1 ∧ t.pc.toNat = nnn.toNat ∧ t.stack.length = s.stack.length ∧
      RegsKeptBut s t [] ∧ t.i = s.i ∧ MemKept s t ∧ FbKept s t

/-- 2nnn with every slot in use raises `StackOverflow` and performs nothing (60_exceptions.md R215, R212). -/
def Obligations.CallBeyondCapacityFaults : Prop :=
  ∀ (nnn : Addr12) (s : State), s.config.stackDepth ≤ s.sp.toNat →
    exec (.call nnn) s =
      .next { s with fault := some ⟨.stackOverflow, s.pc, some (encode (.call nnn))⟩ }

/-- A call followed at once by a return leaves `PC` at the word after the call and the stack as it was
(70_reset_and_hazards.md R256 (c)). -/
def Obligations.CallThenReturnRoundTrip : Prop :=
  ∀ (nnn : Addr12) (s : State), s.Inv → s.sp.toNat < s.config.stackDepth →
    ∃ t u, exec (.call nnn) s = .next t ∧ exec .ret t = .next u ∧
      u.pc.toNat = (s.pc.toNat + 2) % 65536 ∧ u.sp = s.sp ∧ u.stack = s.stack

/-- Bnnn jumps to `nnn + V[0]`, not truncated to 12 bits, and always reports `JP_V0` (41_system_and_flow.md R124). -/
def Obligations.JumpWithOffset : Prop :=
  ∀ (nnn : Addr12) (s : State),
    ∃ t, exec (.jpV0 nnn) s = .next t ∧ Reports (.jpV0 nnn) .jpV0 s t ∧ Ticks s t ∧
      t.pc.toNat = nnn.toNat + (s.reg 0).toNat ∧ RegisterFrame s t []

/-- The four skips go 4 further when their condition holds and 2 further when it does not, and write nothing
else; a word 5xyN or 9xyN with `N ≠ 0` never skips and reports `UNKNOWN` (42_skips.md R130 to R133). -/
def Obligations.SkipsTestTheirCondition : Prop :=
  ∀ (x y : Reg) (nn : Byte) (s : State),
    (∃ t, exec (.seImm x nn) s = .next t ∧ Reports (.seImm x nn) .seImm s t ∧ Ticks s t ∧
      Advances s t (if (s.reg x).toNat = nn.toNat then 4 else 2) ∧ RegisterFrame s t []) ∧
    (∃ t, exec (.sneImm x nn) s = .next t ∧ Reports (.sneImm x nn) .sneImm s t ∧ Ticks s t ∧
      Advances s t (if (s.reg x).toNat = nn.toNat then 2 else 4) ∧ RegisterFrame s t []) ∧
    (∃ t, exec (.seReg x y) s = .next t ∧ Reports (.seReg x y) .seReg s t ∧ Ticks s t ∧
      Advances s t (if (s.reg x).toNat = (s.reg y).toNat then 4 else 2) ∧ RegisterFrame s t []) ∧
    (∃ t, exec (.sneReg x y) s = .next t ∧ Reports (.sneReg x y) .sneReg s t ∧ Ticks s t ∧
      Advances s t (if (s.reg x).toNat = (s.reg y).toNat then 2 else 4) ∧ RegisterFrame s t []) ∧
    (∀ op : Word, op.toNat / 4096 = 5 ∨ op.toNat / 4096 = 9 → op.toNat % 16 ≠ 0 →
      ∃ t, exec (decode op) s = .next t ∧ Sequential (.unknown op) .unknown s t ∧ RegisterFrame s t [])

/-! ## Loads, adds, random -/

/-- 6xnn and 7xnn write `V[x]`, the sum modulo 256, and no flag (43_load_add_random.md R140, R141). -/
def Obligations.ImmediateLoadAndAdd : Prop :=
  ∀ (x : Reg) (nn : Byte) (s : State),
    (∃ t, exec (.ldImm x nn) s = .next t ∧ Sequential (.ldImm x nn) .ldImm s t ∧
      t.reg x = nn ∧ RegisterFrame s t [x]) ∧
    (∃ t, exec (.addImm x nn) s = .next t ∧ Sequential (.addImm x nn) .addImm s t ∧
      (t.reg x).toNat = ((s.reg x).toNat + nn.toNat) % 256 ∧ RegisterFrame s t [x])

/-- Annn writes `nnn` to `I`, bits 15 to 12 becoming 0 (43_load_add_random.md R142). -/
def Obligations.LoadAddressRegister : Prop :=
  ∀ (nnn : Addr12) (s : State),
    ∃ t, exec (.ldI nnn) s = .next t ∧ Sequential (.ldI nnn) .ldI s t ∧
      t.i.toNat = nnn.toNat ∧ RegsKeptBut s t [] ∧ StackKept s t ∧ MemKept s t ∧ FbKept s t

/-- Cxnn writes the input `rnd` of its cycle masked with `nn`, whatever byte the input is; so `V[x] ≤ nn`
(43_load_add_random.md R143). That the input is the field `rnd` is the model's choice (log 2). -/
def Obligations.RandomByteIsMasked : Prop :=
  ∀ (x : Reg) (nn : Byte) (s : State),
    ∃ t, exec (.rnd x nn) s = .next t ∧ Sequential (.rnd x nn) .rnd s t ∧
      t.reg x = s.rnd &&& nn ∧ (t.reg x).toNat ≤ nn.toNat ∧ RegisterFrame s t [x]

/-! ## ALU -/

/-- 8xy0 to 8xy3 write `V[x]` from the old operands, bit by bit, and no flag (44_alu.md R152 to R155). -/
def Obligations.MoveAndBitwise : Prop :=
  ∀ (x y : Reg) (s : State),
    (∃ t, exec (.ldReg x y) s = .next t ∧ Sequential (.ldReg x y) .ldReg s t ∧
      t.reg x = s.reg y ∧ RegisterFrame s t [x]) ∧
    (∃ t, exec (.orReg x y) s = .next t ∧ Sequential (.orReg x y) .or s t ∧
      (∀ k, (t.reg x).getLsbD k = ((s.reg x).getLsbD k || (s.reg y).getLsbD k)) ∧ RegisterFrame s t [x]) ∧
    (∃ t, exec (.andReg x y) s = .next t ∧ Sequential (.andReg x y) .and s t ∧
      (∀ k, (t.reg x).getLsbD k = ((s.reg x).getLsbD k && (s.reg y).getLsbD k)) ∧ RegisterFrame s t [x]) ∧
    (∃ t, exec (.xorReg x y) s = .next t ∧ Sequential (.xorReg x y) .xor s t ∧
      (∀ k, (t.reg x).getLsbD k = ((s.reg x).getLsbD k ^^ (s.reg y).getLsbD k)) ∧ RegisterFrame s t [x])

/-- 8xy4: the sum modulo 256 in `V[x]`; with `x ≠ F` the flag is 1 when the sum exceeds 255, else 0 or, under
`ReferenceAsymmetric`, unchanged; with `x = F` the result is what `VF` holds (44_alu.md R156). The second setting and
the case `x = F` are the spec's own decisions (R151, D14; R150, D13). -/
def Obligations.AddWithCarryFlag : Prop :=
  ∀ (x y : Reg) (s : State),
    ∃ t, exec (.addReg x y) s = .next t ∧ Sequential (.addReg x y) .addReg s t ∧
      (t.reg x).toNat = ((s.reg x).toNat + (s.reg y).toNat) % 256 ∧
      (x ≠ 15 → 255 < (s.reg x).toNat + (s.reg y).toNat → t.reg 15 = 1#8) ∧
      (x ≠ 15 → (s.reg x).toNat + (s.reg y).toNat ≤ 255 →
        t.reg 15 = if s.config.flagMode = .symmetric then 0#8 else s.reg 15) ∧
      RegisterFrame s t [x, 15]

/-- 8xy5 and 8xy7: the difference modulo 256 in `V[x]`; the flag by the strict comparison, under both settings of
`FLAG_MODE`; with `x = F` the result is what `VF` holds (44_alu.md R157, R159, R151, R150). -/
def Obligations.SubtractWithStrictFlag : Prop :=
  ∀ (x y : Reg) (s : State),
    (∃ t, exec (.sub x y) s = .next t ∧ Sequential (.sub x y) .sub s t ∧
      (t.reg x).toNat = (256 + (s.reg x).toNat - (s.reg y).toNat) % 256 ∧
      (x ≠ 15 → (s.reg y).toNat < (s.reg x).toNat → t.reg 15 = 1#8) ∧
      (x ≠ 15 → (s.reg x).toNat ≤ (s.reg y).toNat →
        t.reg 15 = if s.config.flagMode = .symmetric then 0#8 else s.reg 15) ∧
      RegisterFrame s t [x, 15]) ∧
    (∃ t, exec (.subn x y) s = .next t ∧ Sequential (.subn x y) .subn s t ∧
      (t.reg x).toNat = (256 + (s.reg y).toNat - (s.reg x).toNat) % 256 ∧
      (x ≠ 15 → (s.reg x).toNat < (s.reg y).toNat → t.reg 15 = 1#8) ∧
      (x ≠ 15 → (s.reg y).toNat ≤ (s.reg x).toNat →
        t.reg 15 = if s.config.flagMode = .symmetric then 0#8 else s.reg 15) ∧
      RegisterFrame s t [x, 15])

/-- 8xy6 and 8xyE shift `V[x]` in place, whatever `y` is; the flag is written under both settings of `FLAG_MODE`:
the bit shifted out for 8xy6, as `SHL_FLAG` says for 8xyE; with `x = F` the result is what `VF` holds
(44_alu.md R158, R160). -/
def Obligations.ShiftsInPlace : Prop :=
  ∀ (x y : Reg) (s : State),
    (∃ t, exec (.shr x y) s = .next t ∧ Sequential (.shr x y) .shr s t ∧
      (t.reg x).toNat = (s.reg x).toNat / 2 ∧ (x ≠ 15 → (t.reg 15).toNat = (s.reg x).toNat % 2) ∧
      RegisterFrame s t [x, 15]) ∧
    (∃ t, exec (.shl x y) s = .next t ∧ Sequential (.shl x y) .shl s t ∧
      (t.reg x).toNat = (s.reg x).toNat * 2 % 256 ∧
      (x ≠ 15 → s.config.shlFlag = .nonZero →
        (t.reg 15).toNat = if (s.reg x).toNat = 0 then 0 else 1) ∧
      (x ≠ 15 → s.config.shlFlag = .highBit → (t.reg 15).toNat = (s.reg x).toNat / 128) ∧
      RegisterFrame s t [x, 15])

/-! ## The sprite blit -/

/-- Dxyn with its bytes in memory, or with no byte: a cell the sprite covers is flipped, every other cell is
kept; `VF` is 1 exactly when a covered cell was set, else 0 (45_draw.md R172, R173, R174). -/
def Obligations.DrawFlipsTheCoveredCells : Prop :=
  ∀ (x y : Reg) (n : Fin 16) (s : State), n.val = 0 ∨ s.i.toNat + n.val - 1 ≤ 0xFFF →
    ∃ t, exec (.drw x y n) s = .next t ∧ Sequential (.drw x y n) .drw s t ∧
      (∀ row col, Covered s x y n row col → t.cell row col = !(s.cell row col)) ∧
      (∀ row col, ¬ Covered s x y n row col → t.cell row col = s.cell row col) ∧
      ((∃ row col, Covered s x y n row col ∧ s.cell row col = true) → t.reg 15 = 1#8) ∧
      ((¬ ∃ row col, Covered s x y n row col ∧ s.cell row col = true) → t.reg 15 = 0#8) ∧
      RegsKeptBut s t [15] ∧ t.i = s.i ∧ StackKept s t ∧ MemKept s t

/-- Drawing the same sprite at the same place twice restores the framebuffer; the second draw reports a
collision exactly when the first set a cell (45_draw.md R175). The second draw runs with the coordinates of the
first, so `x` or `y` may be F. -/
def Obligations.DrawTwiceRestoresTheFramebuffer : Prop :=
  ∀ (x y : Reg) (n : Fin 16) (s t : State), s.fault = none → exec (.drw x y n) s = .next t → t.fault = none →
    ∃ u, exec (.drw x y n) { t with v := s.v } = .next u ∧
      (∀ row col, u.cell row col = s.cell row col) ∧
      (u.reg 15 = 1#8 ↔ ∃ row col, Covered s x y n row col ∧ s.cell row col = false)

/-- Dxyn with a sprite byte above 0xFFF raises `AddressOutOfRange` with the lowest such address and changes
nothing else (45_draw.md R171; 60_exceptions.md R212). -/
def Obligations.DrawOutOfRangeFaults : Prop :=
  ∀ (x y : Reg) (n : Fin 16) (s : State), 0 < n.val → 0xFFF < s.i.toNat + n.val - 1 →
    exec (.drw x y n) s =
      .next { s with fault := some ⟨.addressOutOfRange (max s.i.toNat 0x1000), s.pc, some (encode (.drw x y n))⟩ }

/-! ## Misc -/

/-- Fx07 reads the delay timer already decremented in its cycle (47_misc.md R190). -/
def Obligations.ReadDelayTimer : Prop :=
  ∀ (x : Reg) (s : State),
    ∃ t, exec (.ldVxDt x) s = .next t ∧ Sequential (.ldVxDt x) .ldVxDt s t ∧
      (t.reg x).toNat = s.td.toNat - 1 ∧ RegisterFrame s t [x]

/-- Fx15 and Fx18 write their timer after this cycle's decrement; the other timer is decremented as usual
(47_misc.md R191, R192). -/
def Obligations.WriteTimers : Prop :=
  ∀ (x : Reg) (s : State),
    (∃ t, exec (.ldDtVx x) s = .next t ∧ Reports (.ldDtVx x) .ldDtVx s t ∧ Advances s t 2 ∧
      t.td = s.reg x ∧ t.ts.toNat = s.ts.toNat - 1 ∧ RegisterFrame s t []) ∧
    (∃ t, exec (.ldStVx x) s = .next t ∧ Reports (.ldStVx x) .ldStVx s t ∧ Advances s t 2 ∧
      t.ts = s.reg x ∧ t.td.toNat = s.td.toNat - 1 ∧ RegisterFrame s t [])

/-- Fx1E keeps the sum modulo 65536 in `I`; `VF` is 1 when the unbounded sum exceeds 0xFFF, else unchanged or, under
`Clear`, 0 (47_misc.md R193). -/
def Obligations.AddToAddressRegister : Prop :=
  ∀ (x : Reg) (s : State),
    ∃ t, exec (.addI x) s = .next t ∧ Sequential (.addI x) .addI s t ∧
      t.i.toNat = (s.i.toNat + (s.reg x).toNat) % 65536 ∧
      (0xFFF < s.i.toNat + (s.reg x).toNat → t.reg 15 = 1#8) ∧
      (s.i.toNat + (s.reg x).toNat ≤ 0xFFF →
        t.reg 15 = if s.config.fx1eVfElse = .unchanged then s.reg 15 else 0#8) ∧
      RegsKeptBut s t [15] ∧ StackKept s t ∧ MemKept s t ∧ FbKept s t

/-- Fx33 with its three bytes in memory stores hundreds, tens and units; every other byte is kept
(47_misc.md R195). -/
def Obligations.BcdStoresThreeDigits : Prop :=
  ∀ (x : Reg) (s : State), s.mem.wf = true → s.i.toNat + 2 ≤ 0xFFF →
    ∃ t, exec (.bcd x) s = .next t ∧ Sequential (.bcd x) .bcd s t ∧
      (t.mem.read (s.effAddr 0)).toNat = (s.reg x).toNat / 100 ∧
      (t.mem.read (s.effAddr 1)).toNat = (s.reg x).toNat / 10 % 10 ∧
      (t.mem.read (s.effAddr 2)).toNat = (s.reg x).toNat % 10 ∧
      MemKeptOutside s t (s.effAddr 0) 3 ∧
      RegsKeptBut s t [] ∧ t.i = s.i ∧ StackKept s t ∧ FbKept s t

/-- Fx55 with its bytes in memory stores `V[0..x]` at `I` upward and leaves `I`; every other byte is kept
(47_misc.md R196). -/
def Obligations.StoreRegisters : Prop :=
  ∀ (x : Reg) (s : State), s.mem.wf = true → s.i.toNat + x.val ≤ 0xFFF →
    ∃ t, exec (.store x) s = .next t ∧ Sequential (.store x) .store s t ∧
      (∀ r : Reg, r ≤ x → t.mem.read (s.effAddr r.val) = s.reg r) ∧
      MemKeptOutside s t (s.effAddr 0) (x.val + 1) ∧
      RegsKeptBut s t [] ∧ t.i = s.i ∧ StackKept s t ∧ FbKept s t

/-- Fx65 with its bytes in memory loads `V[0..x]` from `I` upward; the registers above `V[x]`, `I` and memory are
kept (47_misc.md R197). -/
def Obligations.LoadRegisters : Prop :=
  ∀ (x : Reg) (s : State), s.i.toNat + x.val ≤ 0xFFF →
    ∃ t, exec (.load x) s = .next t ∧ Sequential (.load x) .load s t ∧
      (∀ r : Reg, r ≤ x → t.reg r = s.mem.read (s.effAddr r.val)) ∧
      (∀ r : Reg, x < r → t.reg r = s.reg r) ∧
      t.i = s.i ∧ StackKept s t ∧ MemKept s t ∧ FbKept s t

/-- Fx33, Fx55 and Fx65 with a byte above 0xFFF raise `AddressOutOfRange` with the lowest such address and change
nothing else (60_exceptions.md R214, R212). -/
def Obligations.MemoryInstructionsOutOfRangeFault : Prop :=
  ∀ (x : Reg) (s : State),
    (0xFFF < s.i.toNat + 2 → exec (.bcd x) s =
      .next { s with fault := some ⟨.addressOutOfRange (max s.i.toNat 0x1000), s.pc, some (encode (.bcd x))⟩ }) ∧
    (0xFFF < s.i.toNat + x.val → exec (.store x) s =
      .next { s with fault := some ⟨.addressOutOfRange (max s.i.toNat 0x1000), s.pc, some (encode (.store x))⟩ }) ∧
    (0xFFF < s.i.toNat + x.val → exec (.load x) s =
      .next { s with fault := some ⟨.addressOutOfRange (max s.i.toNat 0x1000), s.pc, some (encode (.load x))⟩ })

/-! ## Words with no effect of their own -/

/-- Ex9E, ExA1, Fx0A and Fx29 report `UNKNOWN` and do nothing but the common part of a cycle: no skip, no wait,
`I` and `V[x]` unchanged (46_keys.md R180 to R182; 47_misc.md R194). That the two key words are Ex9E and ExA1 is
presumed, general knowledge in 30_encoding.md R89 (log 8). -/
def Obligations.UnimplementedWordsDoNothing : Prop :=
  ∀ (x : Reg) (s : State) (i : Instr),
    i ∈ [Instr.keyPressedSkip x, Instr.keyNotPressedSkip x, Instr.waitKey x, Instr.fontAddr x] →
    ∃ t, exec i s = .next t ∧ Sequential i .unknown s t ∧ RegisterFrame s t []

/-- Every word of 30_encoding.md R90's list executes with the common part of a cycle alone and reports `UNKNOWN`
(40_cycle_and_dispatch.md R107); the constructor `unknown` does so for any word it carries. The second clause is
the model's: where the word has a row of its own (`unknown 0x00E0`) the term stands for no word (log 7). -/
def Obligations.UnknownWordsDoNothing : Prop :=
  ∀ (op : Word) (s : State),
    (unknownWord op = true →
      ∃ t, exec (decode op) s = .next t ∧ Sequential (decode op) .unknown s t ∧ t.lastOp = op ∧
        RegisterFrame s t []) ∧
    (∃ t, exec (.unknown op) s = .next t ∧ Sequential (.unknown op) .unknown s t ∧ t.lastOp = op ∧
      RegisterFrame s t [])

/-! ## The host -/

/-- The state after `PowerOn` (70_reset_and_hazards.md R240): every field but memory, then memory. -/
def Obligations.PowerOnValues : Prop :=
  ∀ (c : Config) (low : LowMemInit),
    (∀ r, (State.powerOn c low).reg r = 0#8) ∧ (State.powerOn c low).i = 0#16 ∧
    (State.powerOn c low).pc = 0x0000#16 ∧ (State.powerOn c low).sp = 0#8 ∧
    (State.powerOn c low).stack.length = c.stackDepth ∧ (∀ k, (State.powerOn c low).slot k = 0#16) ∧
    (State.powerOn c low).td = 0#8 ∧ (State.powerOn c low).ts = 0#8 ∧
    (∀ row col, (State.powerOn c low).cell row col = false) ∧ (∀ k, (State.powerOn c low).key k = false) ∧
    (State.powerOn c low).lastOp = 0x0000#16 ∧ (State.powerOn c low).lastClass = .none ∧
    (State.powerOn c low).fault = none ∧
    (∀ a : Fin 512, (State.powerOn c low).mem.read a.val = low.get a) ∧
    (∀ a, 0x200 ≤ a → (State.powerOn c low).mem.read a = 0x00#8)

/-- `Reset` in any state gives every field its power-on value and leaves memory (70_reset_and_hazards.md R241). -/
def Obligations.ResetKeepsOnlyMemory : Prop :=
  ∀ (s : State) (low : LowMemInit),
    (s.perform .reset).1.observe =
      { (State.powerOn s.config low).observe with mem := s.mem } ∧ (s.perform .reset).1.config = s.config

/-- `Load` of an image that fits clears `V` and `I`, sets `PC` to 0x200, copies the image to 0x200 upward and
changes nothing else (70_reset_and_hazards.md R242, R244). -/
def Obligations.LoadCopiesTheImage : Prop :=
  ∀ (s : State) (image : List Byte), s.mem.wf = true → image.length ≤ 3584 →
    ∃ t, s.load image = (t, .done) ∧ t.mem.wf = true ∧
      (∀ r, t.reg r = 0#8) ∧ t.i = 0#16 ∧ t.pc = 0x200#16 ∧
      (∀ k, (h : k < image.length) → t.mem.read (0x200 + k) = image[k]) ∧
      MemKeptOutside s t 0x200 image.length ∧
      t.sp = s.sp ∧ t.stack = s.stack ∧ t.td = s.td ∧ t.ts = s.ts ∧ t.fb = s.fb ∧ t.keys = s.keys ∧
      t.lastOp = s.lastOp ∧ t.lastClass = s.lastClass ∧ t.fault = s.fault

/-- `Load` of an image longer than 3584 bytes reports `LoadOutOfBounds` with its length and writes nothing
(70_reset_and_hazards.md R243). -/
def Obligations.LoadTooLongChangesNothing : Prop :=
  ∀ (s : State) (image : List Byte), 3584 < image.length → s.load image = (s, .loadOutOfBounds image.length)

/-- `KeyPress(k)` and `KeyRelease(k)` write one flag and no other field, and are idempotent
(70_reset_and_hazards.md R246, R247). -/
def Obligations.KeyEventsWriteOneFlag : Prop :=
  ∀ (s : State) (k : Fin 16),
    (s.keyPress k).key k = true ∧ (s.keyRelease k).key k = false ∧
    (∀ j, j ≠ k → (s.keyPress k).key j = s.key j ∧ (s.keyRelease k).key j = s.key j) ∧
    (s.keyPress k).withKeys s.keys = s ∧ (s.keyRelease k).withKeys s.keys = s ∧
    (s.keyPress k).keyPress k = s.keyPress k ∧ (s.keyRelease k).keyRelease k = s.keyRelease k
end

