-- ==== Sys2Proof/Laws/Memory.lean ====
section
/-! SUPPORT. Memory: read after write, the canonical form is kept, and canonical memories that read alike are
equal. -/

namespace Sys2Proof.Machine

@[simp] theorem Memory.read_nil (a : Nat) : Memory.read [] a = Memory.unlisted := rfl

theorem Memory.read_cons (b : Nat) (w : Byte) (m : Memory) (a : Nat) :
    Memory.read ((b, w) :: m) a = if a = b then w else Memory.read m a := rfl

/-! What the canonical form says. -/

theorem Memory.wfFrom_cons (lo a : Nat) (v : Byte) (m : Memory) :
    Memory.wfFrom lo ((a, v) :: m) = true ↔
      lo ≤ a ∧ a < memSize ∧ v ≠ Memory.unlisted ∧ Memory.wfFrom (a + 1) m = true := by
  simp only [Memory.wfFrom, Bool.and_eq_true, decide_eq_true_eq, and_assoc]

theorem Memory.wfFrom_mono {lo lo' : Nat} {m : Memory} (h : Memory.wfFrom lo m = true) (hle : lo' ≤ lo) :
    Memory.wfFrom lo' m = true := by
  cases m with
  | nil => rfl
  | cons c rest =>
    rw [Memory.wfFrom_cons] at h ⊢
    exact ⟨Nat.le_trans hle h.1, h.2⟩

theorem Memory.read_of_lt {lo : Nat} {m : Memory} (h : Memory.wfFrom lo m = true) {a : Nat} (ha : a < lo) :
    Memory.read m a = Memory.unlisted := by
  induction m generalizing lo with
  | nil => rfl
  | cons c rest ih =>
    obtain ⟨b, w⟩ := c
    rw [Memory.wfFrom_cons] at h
    have hne : a ≠ b := by omega
    rw [Memory.read_cons, if_neg hne]
    exact ih h.2.2.2 (by omega)

/-! One write. -/

theorem Memory.read_write_other (m : Memory) {a c : Nat} (v : Byte) (h : c ≠ a) :
    Memory.read (Memory.write m a v) c = Memory.read m c := by
  induction m with
  | nil => unfold Memory.write; split <;> simp [Memory.read, h]
  | cons d rest ih =>
    obtain ⟨b, w⟩ := d
    unfold Memory.write
    split
    · split <;> simp [Memory.read, h]
    · split
      · subst_vars; split <;> simp [Memory.read, h]
      · simp only [Memory.read_cons, ih]

theorem Memory.read_write_same {lo : Nat} {m : Memory} (hm : Memory.wfFrom lo m = true) (a : Nat) (v : Byte) :
    Memory.read (Memory.write m a v) a = v := by
  induction m generalizing lo with
  | nil => unfold Memory.write; split <;> simp_all [Memory.read]
  | cons d rest ih =>
    obtain ⟨b, w⟩ := d
    rw [Memory.wfFrom_cons] at hm
    obtain ⟨-, -, -, hrest⟩ := hm
    unfold Memory.write
    split
    · rename_i hlt
      split
      · rename_i hv
        have hne : a ≠ b := by omega
        rw [Memory.read_cons, if_neg hne, Memory.read_of_lt hrest (by omega), hv]
      · simp [Memory.read_cons]
    · split
      · subst_vars
        split
        · rename_i hv; rw [Memory.read_of_lt hrest (by omega), hv]
        · simp [Memory.read_cons]
      · rename_i hne
        rw [Memory.read_cons, if_neg hne]
        exact ih hrest

theorem Memory.wfFrom_write {lo : Nat} {m : Memory} (hm : Memory.wfFrom lo m = true) {a : Nat} (hlo : lo ≤ a)
    (ha : a < memSize) (v : Byte) : Memory.wfFrom lo (Memory.write m a v) = true := by
  induction m generalizing lo with
  | nil =>
    unfold Memory.write
    split
    · rfl
    · rw [Memory.wfFrom_cons]; exact ⟨hlo, ha, ‹_›, rfl⟩
  | cons d rest ih =>
    obtain ⟨b, w⟩ := d
    have hcons := hm
    rw [Memory.wfFrom_cons] at hm
    obtain ⟨hb, hbs, hw, hrest⟩ := hm
    unfold Memory.write
    split
    · split
      · exact hcons
      · rw [Memory.wfFrom_cons]
        refine ⟨hlo, ha, ‹_›, ?_⟩
        rw [Memory.wfFrom_cons]
        exact ⟨by omega, hbs, hw, hrest⟩
    · split
      · subst_vars
        split
        · exact Memory.wfFrom_mono hrest (by omega)
        · rw [Memory.wfFrom_cons]; exact ⟨hlo, ha, ‹_›, hrest⟩
      · rw [Memory.wfFrom_cons]
        exact ⟨hb, hbs, hw, ih hrest (by omega)⟩

/-- A write inside memory keeps the canonical form. -/
theorem Memory.wf_write {m : Memory} (hm : m.wf = true) {a : Nat} (ha : a < memSize) (v : Byte) :
    (Memory.write m a v).wf = true :=
  Memory.wfFrom_write hm (Nat.zero_le a) ha v

/-! Consecutive writes. -/

theorem Memory.wf_writeList (bytes : List Byte) {m : Memory} (hm : m.wf = true) {base : Nat}
    (h : base + bytes.length ≤ memSize) : (Memory.writeList m base bytes).wf = true := by
  induction bytes generalizing m base with
  | nil => exact hm
  | cons b rest ih =>
    simp only [List.length_cons] at h
    exact ih (Memory.wf_write hm (by omega) b) (by omega)

theorem Memory.read_writeList_outside (bytes : List Byte) (m : Memory) (base : Nat) {a : Nat}
    (h : a < base ∨ base + bytes.length ≤ a) :
    Memory.read (Memory.writeList m base bytes) a = Memory.read m a := by
  induction bytes generalizing m base with
  | nil => rfl
  | cons b rest ih =>
    simp only [List.length_cons] at h
    rw [Memory.writeList, ih _ _ (by omega), Memory.read_write_other _ _ (by omega)]

theorem Memory.read_writeList_inside (bytes : List Byte) {m : Memory} (hm : m.wf = true) {base : Nat}
    (hb : base + bytes.length ≤ memSize) {k : Nat} (hk : k < bytes.length) :
    Memory.read (Memory.writeList m base bytes) (base + k) = bytes[k] := by
  induction bytes generalizing m base k with
  | nil => simp at hk
  | cons b rest ih =>
    simp only [List.length_cons] at hb hk
    have hm' := Memory.wf_write hm (show base < memSize by omega) b
    cases k with
    | zero =>
      rw [Memory.writeList, Memory.read_writeList_outside _ _ _ (by omega)]
      exact Memory.read_write_same hm base b
    | succ j =>
      rw [Memory.writeList, show base + (j + 1) = base + 1 + j by omega]
      exact ih hm' (by omega) (by omega)

/-! Consecutive reads. -/

@[simp] theorem Memory.length_readList (m : Memory) (base count : Nat) :
    (Memory.readList m base count).length = count := by
  induction count generalizing base with
  | zero => rfl
  | succ k ih => simp [Memory.readList, ih]

theorem Memory.getElem_readList (m : Memory) (base count k : Nat) (h : k < (Memory.readList m base count).length) :
    (Memory.readList m base count)[k] = Memory.read m (base + k) := by
  induction count generalizing base k with
  | zero => simp [Memory.readList] at h
  | succ c ih =>
    cases k with
    | zero => rfl
    | succ j =>
      simp only [Memory.readList, List.getElem_cons_succ]
      rw [ih (base + 1) j, show base + 1 + j = base + (j + 1) by omega]

/-! Canonical memories are determined by what they read. -/

theorem Memory.eq_of_read_eq {lo : Nat} {m m' : Memory} (hm : Memory.wfFrom lo m = true)
    (hm' : Memory.wfFrom lo m' = true) (h : ∀ a, Memory.read m a = Memory.read m' a) : m = m' := by
  induction m generalizing lo m' with
  | nil =>
    cases m' with
    | nil => rfl
    | cons c rest =>
      obtain ⟨a, v⟩ := c
      rw [Memory.wfFrom_cons] at hm'
      exact absurd (h a) (by simpa [Memory.read_cons] using Ne.symm hm'.2.2.1)
  | cons c rest ih =>
    obtain ⟨a, v⟩ := c
    rw [Memory.wfFrom_cons] at hm
    obtain ⟨hlo, has, hv, hrest⟩ := hm
    have hra : Memory.read ((a, v) :: rest) a = v := by simp [Memory.read_cons]
    cases m' with
    | nil => exact absurd (hra.symm.trans (h a)) hv
    | cons c' rest' =>
      obtain ⟨a', v'⟩ := c'
      rw [Memory.wfFrom_cons] at hm'
      obtain ⟨hlo', has', hv', hrest'⟩ := hm'
      have hra' : Memory.read ((a', v') :: rest') a' = v' := by simp [Memory.read_cons]
      have haa : a = a' := by
        rcases Nat.lt_trichotomy a a' with hlt | heq | hgt
        · have hz : Memory.read ((a', v') :: rest') a = Memory.unlisted := by
            rw [Memory.read_cons, if_neg (by omega)]; exact Memory.read_of_lt hrest' (by omega)
          exact absurd (hra.symm.trans ((h a).trans hz)) hv
        · exact heq
        · have hz : Memory.read ((a, v) :: rest) a' = Memory.unlisted := by
            rw [Memory.read_cons, if_neg (by omega)]; exact Memory.read_of_lt hrest (by omega)
          exact absurd (hra'.symm.trans ((h a').symm.trans hz)) hv'
      subst haa
      have hvv : v = v' := hra.symm.trans ((h a).trans hra')
      subst hvv
      congr 1
      refine ih hrest hrest' fun b => ?_
      by_cases hb : b = a
      · subst hb
        rw [Memory.read_of_lt hrest (Nat.lt_succ_self _), Memory.read_of_lt hrest' (Nat.lt_succ_self _)]
      · have := h b
        rwa [Memory.read_cons, Memory.read_cons, if_neg hb, if_neg hb] at this

end Sys2Proof.Machine
end

