-- ==== Sys2Proof/Laws/State.lean ====
section
/-! SUPPORT. One lemma per field per update of State, so that no later proof unfolds a record update. -/

namespace Sys2Proof.Machine

/-! A general register is written. -/

@[simp] theorem State.setReg_v (s : State) (r : Reg) (b : Byte) : (s.setReg r b).v = s.v.set r b := rfl
@[simp] theorem State.setReg_i (s : State) (r : Reg) (b : Byte) : (s.setReg r b).i = s.i := rfl
@[simp] theorem State.setReg_pc (s : State) (r : Reg) (b : Byte) : (s.setReg r b).pc = s.pc := rfl
@[simp] theorem State.setReg_sp (s : State) (r : Reg) (b : Byte) : (s.setReg r b).sp = s.sp := rfl
@[simp] theorem State.setReg_stack (s : State) (r : Reg) (b : Byte) : (s.setReg r b).stack = s.stack := rfl
@[simp] theorem State.setReg_td (s : State) (r : Reg) (b : Byte) : (s.setReg r b).td = s.td := rfl
@[simp] theorem State.setReg_ts (s : State) (r : Reg) (b : Byte) : (s.setReg r b).ts = s.ts := rfl
@[simp] theorem State.setReg_mem (s : State) (r : Reg) (b : Byte) : (s.setReg r b).mem = s.mem := rfl
@[simp] theorem State.setReg_fb (s : State) (r : Reg) (b : Byte) : (s.setReg r b).fb = s.fb := rfl
@[simp] theorem State.setReg_keys (s : State) (r : Reg) (b : Byte) : (s.setReg r b).keys = s.keys := rfl
@[simp] theorem State.setReg_lastOp (s : State) (r : Reg) (b : Byte) : (s.setReg r b).lastOp = s.lastOp := rfl
@[simp] theorem State.setReg_lastClass (s : State) (r : Reg) (b : Byte) : (s.setReg r b).lastClass = s.lastClass := rfl
@[simp] theorem State.setReg_fault (s : State) (r : Reg) (b : Byte) : (s.setReg r b).fault = s.fault := rfl
@[simp] theorem State.setReg_config (s : State) (r : Reg) (b : Byte) : (s.setReg r b).config = s.config := rfl
@[simp] theorem State.setReg_rnd (s : State) (r : Reg) (b : Byte) : (s.setReg r b).rnd = s.rnd := rfl
@[simp] theorem State.setReg_draws (s : State) (r : Reg) (b : Byte) : (s.setReg r b).draws = s.draws := rfl

/-! The flag and a result are written. -/

@[simp] theorem State.setFlagThenReg_v (s : State) (f : Byte) (x : Reg) (b : Byte) : (s.setFlagThenReg f x b).v = (s.v.set regVF f).set x b := rfl
@[simp] theorem State.setFlagThenReg_i (s : State) (f : Byte) (x : Reg) (b : Byte) : (s.setFlagThenReg f x b).i = s.i := rfl
@[simp] theorem State.setFlagThenReg_pc (s : State) (f : Byte) (x : Reg) (b : Byte) : (s.setFlagThenReg f x b).pc = s.pc := rfl
@[simp] theorem State.setFlagThenReg_sp (s : State) (f : Byte) (x : Reg) (b : Byte) : (s.setFlagThenReg f x b).sp = s.sp := rfl
@[simp] theorem State.setFlagThenReg_stack (s : State) (f : Byte) (x : Reg) (b : Byte) : (s.setFlagThenReg f x b).stack = s.stack := rfl
@[simp] theorem State.setFlagThenReg_td (s : State) (f : Byte) (x : Reg) (b : Byte) : (s.setFlagThenReg f x b).td = s.td := rfl
@[simp] theorem State.setFlagThenReg_ts (s : State) (f : Byte) (x : Reg) (b : Byte) : (s.setFlagThenReg f x b).ts = s.ts := rfl
@[simp] theorem State.setFlagThenReg_mem (s : State) (f : Byte) (x : Reg) (b : Byte) : (s.setFlagThenReg f x b).mem = s.mem := rfl
@[simp] theorem State.setFlagThenReg_fb (s : State) (f : Byte) (x : Reg) (b : Byte) : (s.setFlagThenReg f x b).fb = s.fb := rfl
@[simp] theorem State.setFlagThenReg_keys (s : State) (f : Byte) (x : Reg) (b : Byte) : (s.setFlagThenReg f x b).keys = s.keys := rfl
@[simp] theorem State.setFlagThenReg_lastOp (s : State) (f : Byte) (x : Reg) (b : Byte) : (s.setFlagThenReg f x b).lastOp = s.lastOp := rfl
@[simp] theorem State.setFlagThenReg_lastClass (s : State) (f : Byte) (x : Reg) (b : Byte) : (s.setFlagThenReg f x b).lastClass = s.lastClass := rfl
@[simp] theorem State.setFlagThenReg_fault (s : State) (f : Byte) (x : Reg) (b : Byte) : (s.setFlagThenReg f x b).fault = s.fault := rfl
@[simp] theorem State.setFlagThenReg_config (s : State) (f : Byte) (x : Reg) (b : Byte) : (s.setFlagThenReg f x b).config = s.config := rfl
@[simp] theorem State.setFlagThenReg_rnd (s : State) (f : Byte) (x : Reg) (b : Byte) : (s.setFlagThenReg f x b).rnd = s.rnd := rfl
@[simp] theorem State.setFlagThenReg_draws (s : State) (f : Byte) (x : Reg) (b : Byte) : (s.setFlagThenReg f x b).draws = s.draws := rfl

/-! Bytes are stored. -/

@[simp] theorem State.storeBytes_v (s : State) (base : Nat) (bytes : List Byte) : (s.storeBytes base bytes).v = s.v := rfl
@[simp] theorem State.storeBytes_i (s : State) (base : Nat) (bytes : List Byte) : (s.storeBytes base bytes).i = s.i := rfl
@[simp] theorem State.storeBytes_pc (s : State) (base : Nat) (bytes : List Byte) : (s.storeBytes base bytes).pc = s.pc := rfl
@[simp] theorem State.storeBytes_sp (s : State) (base : Nat) (bytes : List Byte) : (s.storeBytes base bytes).sp = s.sp := rfl
@[simp] theorem State.storeBytes_stack (s : State) (base : Nat) (bytes : List Byte) : (s.storeBytes base bytes).stack = s.stack := rfl
@[simp] theorem State.storeBytes_td (s : State) (base : Nat) (bytes : List Byte) : (s.storeBytes base bytes).td = s.td := rfl
@[simp] theorem State.storeBytes_ts (s : State) (base : Nat) (bytes : List Byte) : (s.storeBytes base bytes).ts = s.ts := rfl
@[simp] theorem State.storeBytes_mem (s : State) (base : Nat) (bytes : List Byte) : (s.storeBytes base bytes).mem = s.mem.writeList base bytes := rfl
@[simp] theorem State.storeBytes_fb (s : State) (base : Nat) (bytes : List Byte) : (s.storeBytes base bytes).fb = s.fb := rfl
@[simp] theorem State.storeBytes_keys (s : State) (base : Nat) (bytes : List Byte) : (s.storeBytes base bytes).keys = s.keys := rfl
@[simp] theorem State.storeBytes_lastOp (s : State) (base : Nat) (bytes : List Byte) : (s.storeBytes base bytes).lastOp = s.lastOp := rfl
@[simp] theorem State.storeBytes_lastClass (s : State) (base : Nat) (bytes : List Byte) : (s.storeBytes base bytes).lastClass = s.lastClass := rfl
@[simp] theorem State.storeBytes_fault (s : State) (base : Nat) (bytes : List Byte) : (s.storeBytes base bytes).fault = s.fault := rfl
@[simp] theorem State.storeBytes_config (s : State) (base : Nat) (bytes : List Byte) : (s.storeBytes base bytes).config = s.config := rfl
@[simp] theorem State.storeBytes_rnd (s : State) (base : Nat) (bytes : List Byte) : (s.storeBytes base bytes).rnd = s.rnd := rfl
@[simp] theorem State.storeBytes_draws (s : State) (base : Nat) (bytes : List Byte) : (s.storeBytes base bytes).draws = s.draws := rfl

/-! A stack slot is written. -/

@[simp] theorem State.setSlot_v (s : State) (k : Nat) (w : Word) : (s.setSlot k w).v = s.v := rfl
@[simp] theorem State.setSlot_i (s : State) (k : Nat) (w : Word) : (s.setSlot k w).i = s.i := rfl
@[simp] theorem State.setSlot_pc (s : State) (k : Nat) (w : Word) : (s.setSlot k w).pc = s.pc := rfl
@[simp] theorem State.setSlot_sp (s : State) (k : Nat) (w : Word) : (s.setSlot k w).sp = s.sp := rfl
@[simp] theorem State.setSlot_stack (s : State) (k : Nat) (w : Word) : (s.setSlot k w).stack = s.stack.set k w := rfl
@[simp] theorem State.setSlot_td (s : State) (k : Nat) (w : Word) : (s.setSlot k w).td = s.td := rfl
@[simp] theorem State.setSlot_ts (s : State) (k : Nat) (w : Word) : (s.setSlot k w).ts = s.ts := rfl
@[simp] theorem State.setSlot_mem (s : State) (k : Nat) (w : Word) : (s.setSlot k w).mem = s.mem := rfl
@[simp] theorem State.setSlot_fb (s : State) (k : Nat) (w : Word) : (s.setSlot k w).fb = s.fb := rfl
@[simp] theorem State.setSlot_keys (s : State) (k : Nat) (w : Word) : (s.setSlot k w).keys = s.keys := rfl
@[simp] theorem State.setSlot_lastOp (s : State) (k : Nat) (w : Word) : (s.setSlot k w).lastOp = s.lastOp := rfl
@[simp] theorem State.setSlot_lastClass (s : State) (k : Nat) (w : Word) : (s.setSlot k w).lastClass = s.lastClass := rfl
@[simp] theorem State.setSlot_fault (s : State) (k : Nat) (w : Word) : (s.setSlot k w).fault = s.fault := rfl
@[simp] theorem State.setSlot_config (s : State) (k : Nat) (w : Word) : (s.setSlot k w).config = s.config := rfl
@[simp] theorem State.setSlot_rnd (s : State) (k : Nat) (w : Word) : (s.setSlot k w).rnd = s.rnd := rfl
@[simp] theorem State.setSlot_draws (s : State) (k : Nat) (w : Word) : (s.setSlot k w).draws = s.draws := rfl

/-! A return address is pushed. -/

@[simp] theorem State.push_v (s : State) : (s.push).v = s.v := rfl
@[simp] theorem State.push_i (s : State) : (s.push).i = s.i := rfl
@[simp] theorem State.push_pc (s : State) : (s.push).pc = s.pc := rfl
@[simp] theorem State.push_sp (s : State) : (s.push).sp = s.sp + 1#8 := rfl
@[simp] theorem State.push_stack (s : State) : (s.push).stack = s.stack.set s.sp.toNat s.pc := rfl
@[simp] theorem State.push_td (s : State) : (s.push).td = s.td := rfl
@[simp] theorem State.push_ts (s : State) : (s.push).ts = s.ts := rfl
@[simp] theorem State.push_mem (s : State) : (s.push).mem = s.mem := rfl
@[simp] theorem State.push_fb (s : State) : (s.push).fb = s.fb := rfl
@[simp] theorem State.push_keys (s : State) : (s.push).keys = s.keys := rfl
@[simp] theorem State.push_lastOp (s : State) : (s.push).lastOp = s.lastOp := rfl
@[simp] theorem State.push_lastClass (s : State) : (s.push).lastClass = s.lastClass := rfl
@[simp] theorem State.push_fault (s : State) : (s.push).fault = s.fault := rfl
@[simp] theorem State.push_config (s : State) : (s.push).config = s.config := rfl
@[simp] theorem State.push_rnd (s : State) : (s.push).rnd = s.rnd := rfl
@[simp] theorem State.push_draws (s : State) : (s.push).draws = s.draws := rfl

/-! A return address is popped. -/

@[simp] theorem State.pop_v (s : State) : (s.pop).v = s.v := rfl
@[simp] theorem State.pop_i (s : State) : (s.pop).i = s.i := rfl
@[simp] theorem State.pop_pc (s : State) : (s.pop).pc = s.slot (s.sp - 1#8).toNat := rfl
@[simp] theorem State.pop_sp (s : State) : (s.pop).sp = s.sp - 1#8 := rfl
@[simp] theorem State.pop_stack (s : State) : (s.pop).stack = s.stack.set (s.sp - 1#8).toNat 0#16 := rfl
@[simp] theorem State.pop_td (s : State) : (s.pop).td = s.td := rfl
@[simp] theorem State.pop_ts (s : State) : (s.pop).ts = s.ts := rfl
@[simp] theorem State.pop_mem (s : State) : (s.pop).mem = s.mem := rfl
@[simp] theorem State.pop_fb (s : State) : (s.pop).fb = s.fb := rfl
@[simp] theorem State.pop_keys (s : State) : (s.pop).keys = s.keys := rfl
@[simp] theorem State.pop_lastOp (s : State) : (s.pop).lastOp = s.lastOp := rfl
@[simp] theorem State.pop_lastClass (s : State) : (s.pop).lastClass = s.lastClass := rfl
@[simp] theorem State.pop_fault (s : State) : (s.pop).fault = s.fault := rfl
@[simp] theorem State.pop_config (s : State) : (s.pop).config = s.config := rfl
@[simp] theorem State.pop_rnd (s : State) : (s.pop).rnd = s.rnd := rfl
@[simp] theorem State.pop_draws (s : State) : (s.pop).draws = s.draws := rfl

/-! A key flag is written. -/

@[simp] theorem State.setKey_v (s : State) (k : Fin 16) (b : Bool) : (s.setKey k b).v = s.v := rfl
@[simp] theorem State.setKey_i (s : State) (k : Fin 16) (b : Bool) : (s.setKey k b).i = s.i := rfl
@[simp] theorem State.setKey_pc (s : State) (k : Fin 16) (b : Bool) : (s.setKey k b).pc = s.pc := rfl
@[simp] theorem State.setKey_sp (s : State) (k : Fin 16) (b : Bool) : (s.setKey k b).sp = s.sp := rfl
@[simp] theorem State.setKey_stack (s : State) (k : Fin 16) (b : Bool) : (s.setKey k b).stack = s.stack := rfl
@[simp] theorem State.setKey_td (s : State) (k : Fin 16) (b : Bool) : (s.setKey k b).td = s.td := rfl
@[simp] theorem State.setKey_ts (s : State) (k : Fin 16) (b : Bool) : (s.setKey k b).ts = s.ts := rfl
@[simp] theorem State.setKey_mem (s : State) (k : Fin 16) (b : Bool) : (s.setKey k b).mem = s.mem := rfl
@[simp] theorem State.setKey_fb (s : State) (k : Fin 16) (b : Bool) : (s.setKey k b).fb = s.fb := rfl
@[simp] theorem State.setKey_keys (s : State) (k : Fin 16) (b : Bool) : (s.setKey k b).keys = s.keys.set k b := rfl
@[simp] theorem State.setKey_lastOp (s : State) (k : Fin 16) (b : Bool) : (s.setKey k b).lastOp = s.lastOp := rfl
@[simp] theorem State.setKey_lastClass (s : State) (k : Fin 16) (b : Bool) : (s.setKey k b).lastClass = s.lastClass := rfl
@[simp] theorem State.setKey_fault (s : State) (k : Fin 16) (b : Bool) : (s.setKey k b).fault = s.fault := rfl
@[simp] theorem State.setKey_config (s : State) (k : Fin 16) (b : Bool) : (s.setKey k b).config = s.config := rfl
@[simp] theorem State.setKey_rnd (s : State) (k : Fin 16) (b : Bool) : (s.setKey k b).rnd = s.rnd := rfl
@[simp] theorem State.setKey_draws (s : State) (k : Fin 16) (b : Bool) : (s.setKey k b).draws = s.draws := rfl

/-! A fault is taken. -/

@[simp] theorem State.raise_v (s : State) (c : FaultCause) (op : Option Word) : (s.raise c op).v = s.v := rfl
@[simp] theorem State.raise_i (s : State) (c : FaultCause) (op : Option Word) : (s.raise c op).i = s.i := rfl
@[simp] theorem State.raise_pc (s : State) (c : FaultCause) (op : Option Word) : (s.raise c op).pc = s.pc := rfl
@[simp] theorem State.raise_sp (s : State) (c : FaultCause) (op : Option Word) : (s.raise c op).sp = s.sp := rfl
@[simp] theorem State.raise_stack (s : State) (c : FaultCause) (op : Option Word) : (s.raise c op).stack = s.stack := rfl
@[simp] theorem State.raise_td (s : State) (c : FaultCause) (op : Option Word) : (s.raise c op).td = s.td := rfl
@[simp] theorem State.raise_ts (s : State) (c : FaultCause) (op : Option Word) : (s.raise c op).ts = s.ts := rfl
@[simp] theorem State.raise_mem (s : State) (c : FaultCause) (op : Option Word) : (s.raise c op).mem = s.mem := rfl
@[simp] theorem State.raise_fb (s : State) (c : FaultCause) (op : Option Word) : (s.raise c op).fb = s.fb := rfl
@[simp] theorem State.raise_keys (s : State) (c : FaultCause) (op : Option Word) : (s.raise c op).keys = s.keys := rfl
@[simp] theorem State.raise_lastOp (s : State) (c : FaultCause) (op : Option Word) : (s.raise c op).lastOp = s.lastOp := rfl
@[simp] theorem State.raise_lastClass (s : State) (c : FaultCause) (op : Option Word) : (s.raise c op).lastClass = s.lastClass := rfl
@[simp] theorem State.raise_fault (s : State) (c : FaultCause) (op : Option Word) : (s.raise c op).fault = some { cause := c, pc := s.pc, op := op } := rfl
@[simp] theorem State.raise_config (s : State) (c : FaultCause) (op : Option Word) : (s.raise c op).config = s.config := rfl
@[simp] theorem State.raise_rnd (s : State) (c : FaultCause) (op : Option Word) : (s.raise c op).rnd = s.rnd := rfl
@[simp] theorem State.raise_draws (s : State) (c : FaultCause) (op : Option Word) : (s.raise c op).draws = s.draws := rfl

/-! The common part of a cycle. -/

@[simp] theorem State.dispatched_v (s : State) (op : Word) : (s.dispatched op).v = s.v := rfl
@[simp] theorem State.dispatched_i (s : State) (op : Word) : (s.dispatched op).i = s.i := rfl
@[simp] theorem State.dispatched_pc (s : State) (op : Word) : (s.dispatched op).pc = s.pc + 2#16 := rfl
@[simp] theorem State.dispatched_sp (s : State) (op : Word) : (s.dispatched op).sp = s.sp := rfl
@[simp] theorem State.dispatched_stack (s : State) (op : Word) : (s.dispatched op).stack = s.stack := rfl
@[simp] theorem State.dispatched_td (s : State) (op : Word) : (s.dispatched op).td = timerTick s.td := rfl
@[simp] theorem State.dispatched_ts (s : State) (op : Word) : (s.dispatched op).ts = timerTick s.ts := rfl
@[simp] theorem State.dispatched_mem (s : State) (op : Word) : (s.dispatched op).mem = s.mem := rfl
@[simp] theorem State.dispatched_fb (s : State) (op : Word) : (s.dispatched op).fb = s.fb := rfl
@[simp] theorem State.dispatched_keys (s : State) (op : Word) : (s.dispatched op).keys = s.keys := rfl
@[simp] theorem State.dispatched_lastOp (s : State) (op : Word) : (s.dispatched op).lastOp = op := rfl
@[simp] theorem State.dispatched_lastClass (s : State) (op : Word) : (s.dispatched op).lastClass = s.lastClass := rfl
@[simp] theorem State.dispatched_fault (s : State) (op : Word) : (s.dispatched op).fault = s.fault := rfl
@[simp] theorem State.dispatched_config (s : State) (op : Word) : (s.dispatched op).config = s.config := rfl
@[simp] theorem State.dispatched_rnd (s : State) (op : Word) : (s.dispatched op).rnd = Config.freeByte s.draws := rfl
@[simp] theorem State.dispatched_draws (s : State) (op : Word) : (s.dispatched op).draws = s.draws + 1 := rfl

/-! A skip. -/

@[simp] theorem State.skipIf_v (s : State) (c : Bool) : (s.skipIf c).v = s.v := by cases c <;> rfl
@[simp] theorem State.skipIf_i (s : State) (c : Bool) : (s.skipIf c).i = s.i := by cases c <;> rfl
@[simp] theorem State.skipIf_pc (s : State) (c : Bool) : (s.skipIf c).pc = if c then s.pc + 2#16 else s.pc := by cases c <;> rfl
@[simp] theorem State.skipIf_sp (s : State) (c : Bool) : (s.skipIf c).sp = s.sp := by cases c <;> rfl
@[simp] theorem State.skipIf_stack (s : State) (c : Bool) : (s.skipIf c).stack = s.stack := by cases c <;> rfl
@[simp] theorem State.skipIf_td (s : State) (c : Bool) : (s.skipIf c).td = s.td := by cases c <;> rfl
@[simp] theorem State.skipIf_ts (s : State) (c : Bool) : (s.skipIf c).ts = s.ts := by cases c <;> rfl
@[simp] theorem State.skipIf_mem (s : State) (c : Bool) : (s.skipIf c).mem = s.mem := by cases c <;> rfl
@[simp] theorem State.skipIf_fb (s : State) (c : Bool) : (s.skipIf c).fb = s.fb := by cases c <;> rfl
@[simp] theorem State.skipIf_keys (s : State) (c : Bool) : (s.skipIf c).keys = s.keys := by cases c <;> rfl
@[simp] theorem State.skipIf_lastOp (s : State) (c : Bool) : (s.skipIf c).lastOp = s.lastOp := by cases c <;> rfl
@[simp] theorem State.skipIf_lastClass (s : State) (c : Bool) : (s.skipIf c).lastClass = s.lastClass := by cases c <;> rfl
@[simp] theorem State.skipIf_fault (s : State) (c : Bool) : (s.skipIf c).fault = s.fault := by cases c <;> rfl
@[simp] theorem State.skipIf_config (s : State) (c : Bool) : (s.skipIf c).config = s.config := by cases c <;> rfl
@[simp] theorem State.skipIf_rnd (s : State) (c : Bool) : (s.skipIf c).rnd = s.rnd := by cases c <;> rfl
@[simp] theorem State.skipIf_draws (s : State) (c : Bool) : (s.skipIf c).draws = s.draws := by cases c <;> rfl

/-! A blit. -/

@[simp] theorem State.blit_i (s : State) (x y : Reg) (n : Fin 16) : (s.blit x y n).i = s.i := rfl
@[simp] theorem State.blit_pc (s : State) (x y : Reg) (n : Fin 16) : (s.blit x y n).pc = s.pc := rfl
@[simp] theorem State.blit_sp (s : State) (x y : Reg) (n : Fin 16) : (s.blit x y n).sp = s.sp := rfl
@[simp] theorem State.blit_stack (s : State) (x y : Reg) (n : Fin 16) : (s.blit x y n).stack = s.stack := rfl
@[simp] theorem State.blit_td (s : State) (x y : Reg) (n : Fin 16) : (s.blit x y n).td = s.td := rfl
@[simp] theorem State.blit_ts (s : State) (x y : Reg) (n : Fin 16) : (s.blit x y n).ts = s.ts := rfl
@[simp] theorem State.blit_mem (s : State) (x y : Reg) (n : Fin 16) : (s.blit x y n).mem = s.mem := rfl
@[simp] theorem State.blit_keys (s : State) (x y : Reg) (n : Fin 16) : (s.blit x y n).keys = s.keys := rfl
@[simp] theorem State.blit_lastOp (s : State) (x y : Reg) (n : Fin 16) : (s.blit x y n).lastOp = s.lastOp := rfl
@[simp] theorem State.blit_lastClass (s : State) (x y : Reg) (n : Fin 16) : (s.blit x y n).lastClass = s.lastClass := rfl
@[simp] theorem State.blit_fault (s : State) (x y : Reg) (n : Fin 16) : (s.blit x y n).fault = s.fault := rfl
@[simp] theorem State.blit_config (s : State) (x y : Reg) (n : Fin 16) : (s.blit x y n).config = s.config := rfl
@[simp] theorem State.blit_rnd (s : State) (x y : Reg) (n : Fin 16) : (s.blit x y n).rnd = s.rnd := rfl
@[simp] theorem State.blit_draws (s : State) (x y : Reg) (n : Fin 16) : (s.blit x y n).draws = s.draws := rfl

/-! Consecutive registers are written. -/

@[simp] theorem State.setRegsFrom_i (bytes : List Byte) :
    ∀ (s : State) (k : Nat), (s.setRegsFrom k bytes).i = s.i := by
  induction bytes with
  | nil => intro s k; rfl
  | cons b rest ih => intro s k; simp only [State.setRegsFrom, ih]; split <;> rfl
@[simp] theorem State.setRegsFrom_pc (bytes : List Byte) :
    ∀ (s : State) (k : Nat), (s.setRegsFrom k bytes).pc = s.pc := by
  induction bytes with
  | nil => intro s k; rfl
  | cons b rest ih => intro s k; simp only [State.setRegsFrom, ih]; split <;> rfl
@[simp] theorem State.setRegsFrom_sp (bytes : List Byte) :
    ∀ (s : State) (k : Nat), (s.setRegsFrom k bytes).sp = s.sp := by
  induction bytes with
  | nil => intro s k; rfl
  | cons b rest ih => intro s k; simp only [State.setRegsFrom, ih]; split <;> rfl
@[simp] theorem State.setRegsFrom_stack (bytes : List Byte) :
    ∀ (s : State) (k : Nat), (s.setRegsFrom k bytes).stack = s.stack := by
  induction bytes with
  | nil => intro s k; rfl
  | cons b rest ih => intro s k; simp only [State.setRegsFrom, ih]; split <;> rfl
@[simp] theorem State.setRegsFrom_td (bytes : List Byte) :
    ∀ (s : State) (k : Nat), (s.setRegsFrom k bytes).td = s.td := by
  induction bytes with
  | nil => intro s k; rfl
  | cons b rest ih => intro s k; simp only [State.setRegsFrom, ih]; split <;> rfl
@[simp] theorem State.setRegsFrom_ts (bytes : List Byte) :
    ∀ (s : State) (k : Nat), (s.setRegsFrom k bytes).ts = s.ts := by
  induction bytes with
  | nil => intro s k; rfl
  | cons b rest ih => intro s k; simp only [State.setRegsFrom, ih]; split <;> rfl
@[simp] theorem State.setRegsFrom_mem (bytes : List Byte) :
    ∀ (s : State) (k : Nat), (s.setRegsFrom k bytes).mem = s.mem := by
  induction bytes with
  | nil => intro s k; rfl
  | cons b rest ih => intro s k; simp only [State.setRegsFrom, ih]; split <;> rfl
@[simp] theorem State.setRegsFrom_fb (bytes : List Byte) :
    ∀ (s : State) (k : Nat), (s.setRegsFrom k bytes).fb = s.fb := by
  induction bytes with
  | nil => intro s k; rfl
  | cons b rest ih => intro s k; simp only [State.setRegsFrom, ih]; split <;> rfl
@[simp] theorem State.setRegsFrom_keys (bytes : List Byte) :
    ∀ (s : State) (k : Nat), (s.setRegsFrom k bytes).keys = s.keys := by
  induction bytes with
  | nil => intro s k; rfl
  | cons b rest ih => intro s k; simp only [State.setRegsFrom, ih]; split <;> rfl
@[simp] theorem State.setRegsFrom_lastOp (bytes : List Byte) :
    ∀ (s : State) (k : Nat), (s.setRegsFrom k bytes).lastOp = s.lastOp := by
  induction bytes with
  | nil => intro s k; rfl
  | cons b rest ih => intro s k; simp only [State.setRegsFrom, ih]; split <;> rfl
@[simp] theorem State.setRegsFrom_lastClass (bytes : List Byte) :
    ∀ (s : State) (k : Nat), (s.setRegsFrom k bytes).lastClass = s.lastClass := by
  induction bytes with
  | nil => intro s k; rfl
  | cons b rest ih => intro s k; simp only [State.setRegsFrom, ih]; split <;> rfl
@[simp] theorem State.setRegsFrom_fault (bytes : List Byte) :
    ∀ (s : State) (k : Nat), (s.setRegsFrom k bytes).fault = s.fault := by
  induction bytes with
  | nil => intro s k; rfl
  | cons b rest ih => intro s k; simp only [State.setRegsFrom, ih]; split <;> rfl
@[simp] theorem State.setRegsFrom_config (bytes : List Byte) :
    ∀ (s : State) (k : Nat), (s.setRegsFrom k bytes).config = s.config := by
  induction bytes with
  | nil => intro s k; rfl
  | cons b rest ih => intro s k; simp only [State.setRegsFrom, ih]; split <;> rfl
@[simp] theorem State.setRegsFrom_rnd (bytes : List Byte) :
    ∀ (s : State) (k : Nat), (s.setRegsFrom k bytes).rnd = s.rnd := by
  induction bytes with
  | nil => intro s k; rfl
  | cons b rest ih => intro s k; simp only [State.setRegsFrom, ih]; split <;> rfl
@[simp] theorem State.setRegsFrom_draws (bytes : List Byte) :
    ∀ (s : State) (k : Nat), (s.setRegsFrom k bytes).draws = s.draws := by
  induction bytes with
  | nil => intro s k; rfl
  | cons b rest ih => intro s k; simp only [State.setRegsFrom, ih]; split <;> rfl

/-! Readers that look at one field. -/

theorem State.reg_eq (s : State) (r : Reg) : s.reg r = s.v.get r := rfl

theorem State.slot_eq (s : State) (k : Nat) : s.slot k = s.stack.getD k 0#16 := rfl

theorem State.cell_eq (s : State) (row : Fin 32) (col : Fin 64) : s.cell row col = Framebuffer.cell s.fb row col := rfl

theorem State.effAddr_eq (s : State) (k : Nat) : s.effAddr k = s.i.toNat + k := rfl

end Sys2Proof.Machine
end

