-- ==== Sys2Proof/Laws/Registers.lean ====
section
/-! SUPPORT. General registers, stack slots, framebuffer cells and key flags: what reads see after writes. -/

namespace Sys2Proof.Machine

@[simp] theorem State.reg_setReg_same (s : State) (r : Reg) (b : Byte) : (s.setReg r b).reg r = b := by
  simp [State.reg, State.setReg, Vector.get_eq_getElem]

theorem State.reg_setReg_other (s : State) {r q : Reg} (b : Byte) (h : q ≠ r) :
    (s.setReg r b).reg q = s.reg q := by
  have hne : r.val ≠ q.val := fun e => h (Fin.ext e.symm)
  simp [State.reg, State.setReg, Vector.get_eq_getElem, hne]

theorem State.reg_setReg (s : State) (r q : Reg) (b : Byte) :
    (s.setReg r b).reg q = if q = r then b else s.reg q := by
  by_cases h : q = r
  · subst h; simp
  · rw [State.reg_setReg_other s b h, if_neg h]

/-- Flag first, result second: the result stays when the destination is `VF` (R106). -/
theorem State.reg_setFlagThenReg (s : State) (f b : Byte) (x q : Reg) :
    (s.setFlagThenReg f x b).reg q = if q = x then b else if q = regVF then f else s.reg q := by
  simp only [State.setFlagThenReg, State.reg_setReg]

/-- `setRegsFrom` writes `bytes[j]` to register `k + j` and no other register. -/
theorem State.reg_setRegsFrom (bytes : List Byte) (s : State) (k : Nat) (q : Reg) :
    (s.setRegsFrom k bytes).reg q =
      if h : k ≤ q.val ∧ q.val - k < bytes.length then bytes[q.val - k]'h.2 else s.reg q := by
  induction bytes generalizing s k with
  | nil => simp [State.setRegsFrom]
  | cons b rest ih =>
    rw [State.setRegsFrom, ih]
    have hq := q.isLt
    by_cases hlt : k + 1 ≤ q.val ∧ q.val - (k + 1) < rest.length
    · have h2 : k ≤ q.val ∧ q.val - k < (b :: rest).length := by
        simp only [List.length_cons]; omega
      have hidx : q.val - k = (q.val - (k + 1)) + 1 := by omega
      rw [dif_pos hlt, dif_pos h2]
      simp only [hidx, List.getElem_cons_succ]
    · rw [dif_neg hlt]
      by_cases hk : k = q.val
      · have h2 : k ≤ q.val ∧ q.val - k < (b :: rest).length := by
          simp only [List.length_cons]; omega
        have hk16 : k < 16 := by omega
        have hqk : q = ⟨k, hk16⟩ := Fin.ext hk.symm
        rw [dif_pos h2, dif_pos hk16, State.reg_setReg, if_pos hqk]
        simp [← hk]
      · have h2 : ¬ (k ≤ q.val ∧ q.val - k < (b :: rest).length) := by
          simp only [List.length_cons]; omega
        rw [dif_neg h2]
        split
        · rw [State.reg_setReg_other]
          exact fun e => hk (by rw [e])
        · rfl

@[simp] theorem State.length_firstRegs (s : State) (x : Reg) : (s.firstRegs (regCount x)).length = regCount x := by
  have := x.isLt
  simp [State.firstRegs, regCount]

theorem State.getElem_firstRegs (s : State) (x : Reg) (k : Nat) (h : k < (s.firstRegs (regCount x)).length) :
    (s.firstRegs (regCount x))[k] = s.reg ⟨k, by have := x.isLt; rw [State.length_firstRegs, regCount] at h; omega⟩ := by
  simp [State.firstRegs, State.reg, Vector.get]

/-! Slots. -/

theorem State.slot_setSlot (s : State) (k j : Nat) (w : Word) (hk : k < s.stack.length) :
    (s.setSlot k w).slot j = if j = k then w else s.slot j := by
  simp only [State.slot, State.setSlot, List.getD_eq_getElem?_getD, List.getElem?_set]
  by_cases h : k = j
  · subst h; simp [hk]
  · rw [if_neg h, if_neg (Ne.symm h)]

/-! Cells. -/

@[simp] theorem Framebuffer.cell_clear (row : Fin 32) (col : Fin 64) :
    Framebuffer.cell Framebuffer.clear row col = false := by
  simp [Framebuffer.cell, Framebuffer.clear, Vector.get]

theorem Framebuffer.cell_flip (fb : Framebuffer) (row row' : Fin 32) (col col' : Fin 64) :
    Framebuffer.cell (Framebuffer.flip fb row col) row' col' =
      if row' = row ∧ col' = col then !(Framebuffer.cell fb row col) else Framebuffer.cell fb row' col' := by
  have hr : (row'.val = row.val) ↔ row' = row := ⟨Fin.ext, fun e => by rw [e]⟩
  have hc : (col'.val = col.val) ↔ col' = col := ⟨Fin.ext, fun e => by rw [e]⟩
  simp only [Framebuffer.cell, Framebuffer.flip, Vector.get_eq_getElem, Vector.getElem_set]
  by_cases h : row' = row
  · subst h
    simp only [true_and, if_true, Vector.getElem_set]
    by_cases h' : col' = col
    · subst h'; simp
    · have : ¬ col.val = col'.val := fun e => h' (Fin.ext e.symm)
      simp [h', this]
  · have : ¬ row.val = row'.val := fun e => h (Fin.ext e.symm)
    simp [h, this]

/-! Keys. -/

theorem State.key_setKey (s : State) (k j : Fin 16) (b : Bool) :
    (s.setKey k b).key j = if j = k then b else s.key j := by
  simp only [State.key, State.setKey, Vector.get_eq_getElem, Vector.getElem_set]
  by_cases h : j = k
  · subst h; simp
  · have : ¬ k.val = j.val := fun e => h (Fin.ext e.symm)
    simp [h, this]

/-! Timers and `PC`. -/

/-- The decrement is subtraction with floor 0 (40_cycle_and_dispatch.md R103). -/
theorem timerTick_toNat (t : Byte) : (timerTick t).toNat = t.toNat - 1 := by
  unfold timerTick
  split
  · subst_vars; rfl
  · rename_i h
    have hne : t.toNat ≠ 0 := fun e => h (BitVec.eq_of_toNat_eq (by simpa using e))
    rw [BitVec.toNat_sub]
    have := t.isLt
    simp; omega

theorem addrOperand_toNat (nnn : Addr12) : (addrOperand nnn).toNat = nnn.toNat := by
  have := nnn.isLt
  simp [addrOperand]; omega

end Sys2Proof.Machine
end

