-- ==== Sys2Proof/Laws/Cycle.lean ====
section
/-! SUPPORT. What the shared operations of a cycle can answer: the fetch, a completed cycle, a cycle with a fault
condition, a step. -/

namespace Sys2Proof.Machine

/-! The range check and the fetch. -/

theorem rangeFault_none_iff (base count : Nat) :
    rangeFault base count = none ↔ count = 0 ∨ base + count ≤ memSize := by
  unfold rangeFault; split <;> simp <;> omega

theorem rangeFault_some_iff (base count : Nat) (c : FaultCause) :
    rangeFault base count = some c ↔
      (0 < count ∧ memSize < base + count) ∧ c = .addressOutOfRange (max base memSize) := by
  unfold rangeFault; split <;> simp_all [eq_comm]

/-- A fetch inside memory: the byte at `PC` is the high half of the word (20_memory.md R61). -/
theorem State.fetch_ok {s : State} (h : s.pc.toNat + 1 < memSize) :
    s.fetch = .ok (wordOfBytes (s.mem.read s.pc.toNat) (s.mem.read (s.pc.toNat + 1))) := by
  have h0 : s.pc.toNat < memSize := by omega
  simp [State.fetch, State.memRead, h, h0]

/-- A fetch that leaves memory names the lowest address above 0xFFF it would touch (R101). -/
theorem State.fetch_error {s : State} (h : memSize ≤ s.pc.toNat + 1) :
    s.fetch = .error (.addressOutOfRange (max s.pc.toNat memSize)) := by
  by_cases h0 : s.pc.toNat < memSize
  · have h1 : ¬ s.pc.toNat + 1 < memSize := by omega
    have h2 : s.pc.toNat + 1 = max s.pc.toNat memSize := by omega
    simp [State.fetch, State.memRead, h0, h2]
  · have h2 : s.pc.toNat = max s.pc.toNat memSize := by omega
    simp only [State.fetch, State.memRead, if_neg h0, ← h2]

theorem State.fetch_ok_iff (s : State) (op : Word) :
    s.fetch = .ok op ↔ s.pc.toNat + 1 < memSize ∧
      op = wordOfBytes (s.mem.read s.pc.toNat) (s.mem.read (s.pc.toNat + 1)) := by
  by_cases h : s.pc.toNat + 1 < memSize
  · rw [State.fetch_ok h]; simp [h, eq_comm]
  · rw [State.fetch_error (by omega)]; simp [h]

/-! Cycles. -/

theorem complete_next {i : Instr} {token : Token} {effect : State → State} {s t : State}
    (h : complete i token effect s = .next t) :
    t = { effect (s.dispatched (encode i)) with lastClass := token } := by
  injection h with h; exact h.symm

/-- Everything a cycle with a fault condition can answer: the fault, or the completed cycle. -/
theorem completeUnless_next {i : Instr} {cause : Option FaultCause} {token : Token} {effect : State → State}
    {s t : State} (h : completeUnless i cause token effect s = .next t) :
    (∃ c, cause = some c ∧ t = s.raise c (some (encode i))) ∨
      (cause = none ∧ t = { effect (s.dispatched (encode i)) with lastClass := token }) := by
  cases cause with
  | none => exact .inr ⟨rfl, complete_next h⟩
  | some c => injection h with h; exact .inl ⟨c, rfl, h.symm⟩

/-- Everything a step of an unfaulted machine can do. -/
theorem step_next {s t : State} (h : step s = .next t) :
    s.fault = none ∧
      ((∃ c, s.fetch = .error c ∧ t = s.raise c none) ∨
       (∃ op, s.fetch = .ok op ∧ exec (decode op) s = .next t)) := by
  unfold step at h
  split at h
  · cases h
  · rename_i hf
    refine ⟨hf, ?_⟩
    split at h
    · rename_i c hc; injection h with h; exact .inl ⟨c, hc, h.symm⟩
    · rename_i op hop; exact .inr ⟨op, hop, h⟩

theorem step_of_fetch {s : State} {op : Word} (hf : s.fault = none) (h : s.fetch = .ok op) :
    step s = exec (decode op) s := by
  simp [step, hf, h]

/-! Stores and placed words keep the canonical form of memory. -/

theorem State.wf_storeBytes {s : State} (h : s.mem.wf = true) {base : Nat} {bytes : List Byte}
    (hfit : base + bytes.length ≤ memSize) : (s.storeBytes base bytes).mem.wf = true :=
  Memory.wf_writeList bytes h hfit

theorem State.wf_withFetchWord {s : State} (h : s.mem.wf = true) (hpc : s.pc.toNat + 2 ≤ memSize) (nbits w : Nat) :
    (s.withFetchWord nbits w).mem.wf = true :=
  Memory.wf_writeList _ h hpc

/-- The host's `Load` keeps it, whether the image fits or not. -/
theorem State.wf_load {s : State} (h : s.mem.wf = true) (image : List Byte) : (s.load image).1.mem.wf = true := by
  unfold State.load
  split
  · exact h
  · exact Memory.wf_writeList _ h (by simp only [maxImage, progBase, memSize] at *; omega)

end Sys2Proof.Machine
end

