-- ==== Sys2Proof/Laws/Draw.lean ====
section
/-! SUPPORT. The blit of 45_draw.md R172: which cells a row and a sprite flip, and when the collision flag rises. -/

namespace Sys2Proof.Machine

theorem spriteCol_inj {vx : Byte} {b b' : Nat} (hb : b < 8) (hb' : b' < 8) (h : spriteCol vx b = spriteCol vx b') :
    b = b' := by
  simp only [spriteCol, Fin.ext_iff, Fin.val_ofNat] at h; omega

theorem spriteRow_inj {vy : Byte} {r r' : Nat} (h : spriteRow vy r = spriteRow vy r') : r % 32 = r' % 32 := by
  simp only [spriteRow, Fin.ext_iff, Fin.val_ofNat] at h; omega

/-- One bit flips its own cell when it is 1, and no other cell. -/
theorem blitBit_flips (row : Fin 32) (vx byte : Byte) (b : Nat) (acc : Blit) (row' : Fin 32) (col : Fin 64) :
    Framebuffer.cell (blitBit row vx byte b acc).fb row' col ≠ Framebuffer.cell acc.fb row' col ↔
      byte.getLsbD b = true ∧ row' = row ∧ col = spriteCol vx b := by
  unfold blitBit
  by_cases h : byte.getLsbD b = true
  · by_cases hc : row' = row ∧ col = spriteCol vx b
    · obtain ⟨rfl, rfl⟩ := hc; simp [h, Framebuffer.cell_flip]
    · rw [if_pos h, Framebuffer.cell_flip, if_neg hc]
      exact ⟨fun e => absurd rfl e, fun e => absurd e.2 hc⟩
  · simp [h]

theorem blitBit_hit (row : Fin 32) (vx byte : Byte) (b : Nat) (acc : Blit) :
    (blitBit row vx byte b acc).hit = true ↔
      acc.hit = true ∨ byte.getLsbD b = true ∧ Framebuffer.cell acc.fb row (spriteCol vx b) = true := by
  unfold blitBit; split <;> simp_all

/-- A row flips exactly the cells under its 1 bits. -/
theorem blitRow_flips (row : Fin 32) (vx byte : Byte) (k : Nat) (hk : k ≤ 8) (acc : Blit) (row' : Fin 32)
    (col : Fin 64) :
    Framebuffer.cell (blitRow row vx byte k acc).fb row' col ≠ Framebuffer.cell acc.fb row' col ↔
      row' = row ∧ ∃ b, b < k ∧ byte.getLsbD b = true ∧ col = spriteCol vx b := by
  induction k generalizing acc with
  | zero => simp [blitRow]
  | succ k ih =>
    have h1 := ih (by omega) (blitBit row vx byte k acc)
    have h2 := blitBit_flips row vx byte k acc row' col
    rw [blitRow]
    by_cases hb : byte.getLsbD k = true ∧ row' = row ∧ col = spriteCol vx k
    · have hne : ¬ ∃ b, b < k ∧ byte.getLsbD b = true ∧ col = spriteCol vx b := by
        rintro ⟨b, hlt, -, hcol⟩
        have := spriteCol_inj (by omega) (by omega) (hb.2.2.symm.trans hcol)
        omega
      have e1 : Framebuffer.cell (blitRow row vx byte k (blitBit row vx byte k acc)).fb row' col =
          Framebuffer.cell (blitBit row vx byte k acc).fb row' col :=
        Classical.byContradiction fun h => hne (h1.1 h).2
      rw [e1]
      exact ⟨fun _ => ⟨hb.2.1, k, by omega, hb.1, hb.2.2⟩, fun _ => h2.2 hb⟩
    · have e2 : Framebuffer.cell (blitBit row vx byte k acc).fb row' col = Framebuffer.cell acc.fb row' col :=
        Classical.byContradiction fun h => hb (h2.1 h)
      rw [← e2, h1]
      constructor
      · rintro ⟨hr, b, hlt, hbit, hcol⟩; exact ⟨hr, b, by omega, hbit, hcol⟩
      · rintro ⟨hr, b, hlt, hbit, hcol⟩
        rcases Nat.lt_succ_iff_lt_or_eq.1 hlt with hlt | rfl
        · exact ⟨hr, b, hlt, hbit, hcol⟩
        · exact absurd ⟨hbit, hr, hcol⟩ hb

theorem blitRow_hit (row : Fin 32) (vx byte : Byte) (k : Nat) (hk : k ≤ 8) (acc : Blit) :
    (blitRow row vx byte k acc).hit = true ↔
      acc.hit = true ∨ ∃ b, b < k ∧ byte.getLsbD b = true ∧
        Framebuffer.cell acc.fb row (spriteCol vx b) = true := by
  induction k generalizing acc with
  | zero => simp [blitRow]
  | succ k ih =>
    have same : ∀ b, b < k → Framebuffer.cell (blitBit row vx byte k acc).fb row (spriteCol vx b) =
        Framebuffer.cell acc.fb row (spriteCol vx b) := fun b hb =>
      Classical.byContradiction fun h => by
        have := spriteCol_inj (by omega) (by omega) ((blitBit_flips row vx byte k acc row _).1 h).2.2
        omega
    rw [blitRow, ih (by omega), blitBit_hit]
    constructor
    · rintro ((h | ⟨hb, hc⟩) | ⟨b, hlt, hb, hc⟩)
      · exact .inl h
      · exact .inr ⟨k, by omega, hb, hc⟩
      · exact .inr ⟨b, by omega, hb, by rwa [same b hlt] at hc⟩
    · rintro (h | ⟨b, hlt, hb, hc⟩)
      · exact .inl (.inl h)
      · rcases Nat.lt_succ_iff_lt_or_eq.1 hlt with hlt | rfl
        · exact .inr ⟨b, hlt, hb, by rwa [same b hlt]⟩
        · exact .inl (.inr ⟨hb, hc⟩)

/-- A sprite of at most 32 rows flips exactly the cells under its 1 bits. -/
theorem blitRows_flips (vx vy : Byte) (bytes : List Byte) (r : Nat) (hlen : bytes.length ≤ 32) (acc : Blit)
    (row : Fin 32) (col : Fin 64) :
    Framebuffer.cell (blitRows vx vy r bytes acc).fb row col ≠ Framebuffer.cell acc.fb row col ↔
      ∃ j b, ∃ h : j < bytes.length, b < 8 ∧ (bytes[j]'h).getLsbD b = true ∧
        row = spriteRow vy (r + j) ∧ col = spriteCol vx b := by
  induction bytes generalizing acc r with
  | nil => simp [blitRows]
  | cons byte rest ih =>
    have hlen' : rest.length + 1 ≤ 32 := by simpa using hlen
    have h1 := ih (r + 1) (by omega) (blitRow (spriteRow vy r) vx byte 8 acc)
    have h2 := blitRow_flips (spriteRow vy r) vx byte 8 (by omega) acc row col
    rw [blitRows]
    by_cases hb : row = spriteRow vy r ∧ ∃ b, b < 8 ∧ byte.getLsbD b = true ∧ col = spriteCol vx b
    · have hne : ¬ ∃ j b, ∃ h : j < rest.length, b < 8 ∧ (rest[j]'h).getLsbD b = true ∧
          row = spriteRow vy (r + 1 + j) ∧ col = spriteCol vx b := by
        rintro ⟨j, b, hj, -, -, hrow, -⟩
        have := spriteRow_inj (hb.1.symm.trans hrow)
        omega
      have e1 : Framebuffer.cell (blitRows vx vy (r + 1) rest (blitRow (spriteRow vy r) vx byte 8 acc)).fb row col =
          Framebuffer.cell (blitRow (spriteRow vy r) vx byte 8 acc).fb row col :=
        Classical.byContradiction fun h => hne (h1.1 h)
      rw [e1]
      obtain ⟨hrow, b, hb8, hbit, hcol⟩ := hb
      exact ⟨fun _ => ⟨0, b, by simp, hb8, hbit, hrow, hcol⟩, fun _ => h2.2 ⟨hrow, b, hb8, hbit, hcol⟩⟩
    · have e2 : Framebuffer.cell (blitRow (spriteRow vy r) vx byte 8 acc).fb row col =
          Framebuffer.cell acc.fb row col := Classical.byContradiction fun h => hb (h2.1 h)
      rw [← e2, h1]
      constructor
      · rintro ⟨j, b, hj, hb8, hbit, hrow, hcol⟩
        exact ⟨j + 1, b, by simpa using hj, hb8, by simpa using hbit,
          by rw [hrow]; congr 1; omega, hcol⟩
      · rintro ⟨j, b, hj, hb8, hbit, hrow, hcol⟩
        cases j with
        | zero => exact absurd ⟨hrow, b, hb8, hbit, hcol⟩ hb
        | succ j => exact ⟨j, b, by simpa using hj, hb8, by simpa using hbit,
            by rw [hrow]; congr 1; omega, hcol⟩

/-- The collision flag rises exactly when a cell under a 1 bit was set before the blit. -/
theorem blitRows_hit (vx vy : Byte) (bytes : List Byte) (r : Nat) (hlen : bytes.length ≤ 32) (acc : Blit) :
    (blitRows vx vy r bytes acc).hit = true ↔
      acc.hit = true ∨ ∃ j b, ∃ h : j < bytes.length, b < 8 ∧ (bytes[j]'h).getLsbD b = true ∧
        Framebuffer.cell acc.fb (spriteRow vy (r + j)) (spriteCol vx b) = true := by
  induction bytes generalizing acc r with
  | nil => simp [blitRows]
  | cons byte rest ih =>
    have hlen' : rest.length + 1 ≤ 32 := by simpa using hlen
    have same : ∀ j col, j < rest.length →
        Framebuffer.cell (blitRow (spriteRow vy r) vx byte 8 acc).fb (spriteRow vy (r + 1 + j)) col =
          Framebuffer.cell acc.fb (spriteRow vy (r + 1 + j)) col := fun j col hj =>
      Classical.byContradiction fun h => by
        have := spriteRow_inj ((blitRow_flips _ vx byte 8 (by omega) acc _ col).1 h).1
        omega
    rw [blitRows, ih (r + 1) (by omega), blitRow_hit _ vx byte 8 (by omega)]
    constructor
    · rintro ((h | ⟨b, hb8, hbit, hc⟩) | ⟨j, b, hj, hb8, hbit, hc⟩)
      · exact .inl h
      · exact .inr ⟨0, b, by simp, hb8, hbit, hc⟩
      · refine .inr ⟨j + 1, b, by simpa using hj, hb8, by simpa using hbit, ?_⟩
        rw [same j _ hj] at hc
        rwa [show r + (j + 1) = r + 1 + j by omega]
    · rintro (h | ⟨j, b, hj, hb8, hbit, hc⟩)
      · exact .inl (.inl h)
      · cases j with
        | zero => exact .inl (.inr ⟨b, hb8, hbit, hc⟩)
        | succ j =>
          have hj' : j < rest.length := by simpa using hj
          refine .inr ⟨j, b, hj', hb8, by simpa using hbit, ?_⟩
          rw [same j _ hj']
          rwa [show r + (j + 1) = r + 1 + j by omega] at hc

end Sys2Proof.Machine
end

