-- ==== Sys2Proof/Laws/Encoding.lean ====
section
/-! SUPPORT. The fields of a word as numbers, of the encoded formats, and words put together from their fields. -/

namespace Sys2Proof

/-! A field is a digit of the word's number (30_encoding.md R82). -/

theorem fieldMajor_eq (op : Word) : fieldMajor op = op.toNat / 4096 := by
  have := op.isLt
  simp [fieldMajor, Nat.shiftRight_eq_div_pow]; omega

theorem fieldX_val (op : Word) : (fieldX op).val = op.toNat / 256 % 16 := by
  simp [fieldX, Nat.shiftRight_eq_div_pow]

theorem fieldY_val (op : Word) : (fieldY op).val = op.toNat / 16 % 16 := by
  simp [fieldY, Nat.shiftRight_eq_div_pow]

theorem fieldN_val (op : Word) : (fieldN op).val = op.toNat % 16 := by
  simp [fieldN]

theorem fieldNn_toNat (op : Word) : (fieldNn op).toNat = op.toNat % 256 := by
  simp [fieldNn, BitVec.extractLsb'_toNat]

theorem fieldNnn_toNat (op : Word) : (fieldNnn op).toNat = op.toNat % 4096 := by
  simp [fieldNnn, BitVec.extractLsb'_toNat]

/-! An encoded format is the number its fields make (30_encoding.md R81). -/

theorem encodeNnn_toNat (m : Fin 16) (nnn : Addr12) :
    (encodeNnn m nnn).toNat = m.val * 4096 + nnn.toNat := by
  have := m.isLt; have := nnn.isLt
  simp [encodeNnn]; omega

theorem encodeXnn_toNat (m : Fin 16) (x : Reg) (nn : Byte) :
    (encodeXnn m x nn).toNat = m.val * 4096 + x.val * 256 + nn.toNat := by
  have := m.isLt; have := x.isLt; have := nn.isLt
  simp [encodeXnn]; omega

theorem encodeXyn_toNat (m : Fin 16) (x y : Reg) (n : Fin 16) :
    (encodeXyn m x y n).toNat = m.val * 4096 + x.val * 256 + y.val * 16 + n.val := by
  have := m.isLt; have := x.isLt; have := y.isLt; have := n.isLt
  simp [encodeXyn]; omega

theorem wordOfBytes_toNat (hi lo : Byte) : (wordOfBytes hi lo).toNat = hi.toNat * 256 + lo.toNat := by
  have := hi.isLt; have := lo.isLt
  simp [wordOfBytes]; omega

/-! The fields of an encoded format are what was put in. -/

theorem fieldMajor_encodeNnn (m : Fin 16) (nnn : Addr12) : fieldMajor (encodeNnn m nnn) = m.val := by
  have := nnn.isLt
  rw [fieldMajor_eq, encodeNnn_toNat]; omega

theorem fieldNnn_encodeNnn (m : Fin 16) (nnn : Addr12) : fieldNnn (encodeNnn m nnn) = nnn := by
  have := nnn.isLt
  apply BitVec.eq_of_toNat_eq; rw [fieldNnn_toNat, encodeNnn_toNat]; omega

theorem fieldMajor_encodeXnn (m : Fin 16) (x : Reg) (nn : Byte) : fieldMajor (encodeXnn m x nn) = m.val := by
  have := x.isLt; have := nn.isLt
  rw [fieldMajor_eq, encodeXnn_toNat]; omega

theorem fieldX_encodeXnn (m : Fin 16) (x : Reg) (nn : Byte) : fieldX (encodeXnn m x nn) = x := by
  have := x.isLt; have := nn.isLt
  apply Fin.ext; rw [fieldX_val, encodeXnn_toNat]; omega

theorem fieldNn_encodeXnn (m : Fin 16) (x : Reg) (nn : Byte) : fieldNn (encodeXnn m x nn) = nn := by
  have := nn.isLt
  apply BitVec.eq_of_toNat_eq; rw [fieldNn_toNat, encodeXnn_toNat]; omega

theorem fieldMajor_encodeXyn (m : Fin 16) (x y : Reg) (n : Fin 16) : fieldMajor (encodeXyn m x y n) = m.val := by
  have := x.isLt; have := y.isLt; have := n.isLt
  rw [fieldMajor_eq, encodeXyn_toNat]; omega

theorem fieldX_encodeXyn (m : Fin 16) (x y : Reg) (n : Fin 16) : fieldX (encodeXyn m x y n) = x := by
  have := x.isLt; have := y.isLt; have := n.isLt
  apply Fin.ext; rw [fieldX_val, encodeXyn_toNat]; omega

theorem fieldY_encodeXyn (m : Fin 16) (x y : Reg) (n : Fin 16) : fieldY (encodeXyn m x y n) = y := by
  have := y.isLt; have := n.isLt
  apply Fin.ext; rw [fieldY_val, encodeXyn_toNat]; omega

theorem fieldN_encodeXyn (m : Fin 16) (x y : Reg) (n : Fin 16) : fieldN (encodeXyn m x y n) = n := by
  have := n.isLt
  apply Fin.ext; rw [fieldN_val, encodeXyn_toNat]; omega

/-! A word is its major nibble and the fields of any format. -/

theorem encodeNnn_fields {op : Word} {m : Fin 16} (h : fieldMajor op = m.val) :
    encodeNnn m (fieldNnn op) = op := by
  rw [fieldMajor_eq] at h
  apply BitVec.eq_of_toNat_eq; rw [encodeNnn_toNat, fieldNnn_toNat]; omega

theorem encodeXnn_fields {op : Word} {m : Fin 16} (h : fieldMajor op = m.val) :
    encodeXnn m (fieldX op) (fieldNn op) = op := by
  rw [fieldMajor_eq] at h
  apply BitVec.eq_of_toNat_eq; rw [encodeXnn_toNat, fieldX_val, fieldNn_toNat]; omega

theorem encodeXyn_fields {op : Word} {m : Fin 16} (h : fieldMajor op = m.val) :
    encodeXyn m (fieldX op) (fieldY op) (fieldN op) = op := by
  rw [fieldMajor_eq] at h
  apply BitVec.eq_of_toNat_eq; rw [encodeXyn_toNat, fieldX_val, fieldY_val, fieldN_val]; omega

/-! A word under the masks of spec/opcode_table.json. -/

theorem and_F000 (op : Word) : op &&& 0xF000#16 = BitVec.ofNat 4 (fieldMajor op) ++ 0#12 := by
  rw [fieldMajor, BitVec.ofNat_toNat, BitVec.setWidth_eq]
  apply BitVec.eq_of_getLsbD_eq
  intro i hi
  have : i < 16 := hi
  interval_cases i <;>
    simp only [BitVec.getLsbD_append, BitVec.getLsbD_and, BitVec.getLsbD_extractLsb'] <;> simp

theorem and_F00F (op : Word) :
    op &&& 0xF00F#16 = BitVec.ofNat 4 (fieldMajor op) ++ 0#8 ++ BitVec.ofNat 4 (fieldN op).val := by
  have h : BitVec.ofNat 4 (fieldN op).val = op.extractLsb' 0 4 := by
    apply BitVec.eq_of_toNat_eq; simp [fieldN_val]
  rw [h, fieldMajor, BitVec.ofNat_toNat, BitVec.setWidth_eq]
  apply BitVec.eq_of_getLsbD_eq
  intro i hi
  have : i < 16 := hi
  interval_cases i <;>
    simp only [BitVec.getLsbD_append, BitVec.getLsbD_and, BitVec.getLsbD_extractLsb'] <;> simp

theorem and_F0FF (op : Word) :
    op &&& 0xF0FF#16 = BitVec.ofNat 4 (fieldMajor op) ++ 0#4 ++ fieldNn op := by
  rw [fieldMajor, BitVec.ofNat_toNat, BitVec.setWidth_eq, fieldNn]
  apply BitVec.eq_of_getLsbD_eq
  intro i hi
  have : i < 16 := hi
  interval_cases i <;>
    simp only [BitVec.getLsbD_append, BitVec.getLsbD_and, BitVec.getLsbD_extractLsb'] <;> simp

/-! Bytes and words. -/

theorem bytesOfWord_eq (op : Word) :
    bytesOfWord op = [BitVec.ofNat 8 (op.toNat / 256), BitVec.ofNat 8 op.toNat] := by
  have h1 : op.extractLsb' 8 8 = BitVec.ofNat 8 (op.toNat / 256) := by
    apply BitVec.eq_of_toNat_eq; simp [BitVec.extractLsb'_toNat, Nat.shiftRight_eq_div_pow]
  have h2 : op.extractLsb' 0 8 = BitVec.ofNat 8 op.toNat := by
    apply BitVec.eq_of_toNat_eq; simp [BitVec.extractLsb'_toNat]
  rw [bytesOfWord, h1, h2]

theorem wordOfBytes_bytesOfWord (op : Word) :
    wordOfBytes (op.extractLsb' 8 8) (op.extractLsb' 0 8) = op := by
  have := op.isLt
  apply BitVec.eq_of_toNat_eq
  rw [wordOfBytes_toNat]
  simp [BitVec.extractLsb'_toNat, Nat.shiftRight_eq_div_pow]; omega

end Sys2Proof
end

