-- ==== Sys2Proof/Laws/Exec.lean ====
section
/-! SUPPORT. `exec` of each instruction as its cycle: one equation per constructor, by unfolding alone, so that a
proof about an instruction starts from the shared operation `complete` or `completeUnless`. -/

namespace Sys2Proof.Machine

theorem exec_cls (s : State) :
    exec .cls s =
      complete .cls .cls (fun d => { d with fb := Framebuffer.clear }) s := rfl

theorem exec_ret (s : State) :
    exec .ret s =
      completeUnless .ret (if s.sp = 0#8 then some .stackUnderflow else none) .ret State.pop s := rfl

theorem exec_jp (nnn : Addr12) (s : State) :
    exec (.jp nnn) s =
      complete (.jp nnn) (if addrOperand nnn = s.pc then .jpSelf else .jp)
        (fun d => { d with pc := addrOperand nnn }) s := rfl

theorem exec_call (nnn : Addr12) (s : State) :
    exec (.call nnn) s =
      completeUnless (.call nnn) (if s.config.stackDepth ≤ s.sp.toNat then some .stackOverflow else none) .call
        (fun d => { d.push with pc := addrOperand nnn }) s := rfl

theorem exec_seImm (x : Reg) (nn : Byte) (s : State) :
    exec (.seImm x nn) s =
      complete (.seImm x nn) .seImm (fun d => d.skipIf (decide (d.reg x = nn))) s := rfl

theorem exec_sneImm (x : Reg) (nn : Byte) (s : State) :
    exec (.sneImm x nn) s =
      complete (.sneImm x nn) .sneImm (fun d => d.skipIf (decide (d.reg x ≠ nn))) s := rfl

theorem exec_seReg (x y : Reg) (s : State) :
    exec (.seReg x y) s =
      complete (.seReg x y) .seReg (fun d => d.skipIf (decide (d.reg x = d.reg y))) s := rfl

theorem exec_ldImm (x : Reg) (nn : Byte) (s : State) :
    exec (.ldImm x nn) s =
      complete (.ldImm x nn) .ldImm (fun d => d.setReg x nn) s := rfl

theorem exec_addImm (x : Reg) (nn : Byte) (s : State) :
    exec (.addImm x nn) s =
      complete (.addImm x nn) .addImm (fun d => d.setReg x (d.reg x + nn)) s := rfl

theorem exec_ldReg (x y : Reg) (s : State) :
    exec (.ldReg x y) s =
      complete (.ldReg x y) .ldReg (fun d => d.setReg x (d.reg y)) s := rfl

theorem exec_orReg (x y : Reg) (s : State) :
    exec (.orReg x y) s =
      complete (.orReg x y) .or (fun d => d.setReg x (d.reg x ||| d.reg y)) s := rfl

theorem exec_andReg (x y : Reg) (s : State) :
    exec (.andReg x y) s =
      complete (.andReg x y) .and (fun d => d.setReg x (d.reg x &&& d.reg y)) s := rfl

theorem exec_xorReg (x y : Reg) (s : State) :
    exec (.xorReg x y) s =
      complete (.xorReg x y) .xor (fun d => d.setReg x (d.reg x ^^^ d.reg y)) s := rfl

theorem exec_addReg (x y : Reg) (s : State) :
    exec (.addReg x y) s =
      complete (.addReg x y) .addReg
        (fun d => d.setFlagThenReg
          (aluFlag d.config.flagMode (carryCond (d.reg x) (d.reg y)) (d.reg regVF)) x (d.reg x + d.reg y)) s := rfl

theorem exec_sub (x y : Reg) (s : State) :
    exec (.sub x y) s =
      complete (.sub x y) .sub
        (fun d => d.setFlagThenReg
          (aluFlag d.config.flagMode (greaterCond (d.reg x) (d.reg y)) (d.reg regVF)) x (d.reg x - d.reg y)) s := rfl

theorem exec_shr (x y : Reg) (s : State) :
    exec (.shr x y) s =
      complete (.shr x y) .shr (fun d => d.setFlagThenReg (shrFlag (d.reg x)) x (d.reg x >>> 1)) s := rfl

theorem exec_subn (x y : Reg) (s : State) :
    exec (.subn x y) s =
      complete (.subn x y) .subn
        (fun d => d.setFlagThenReg
          (aluFlag d.config.flagMode (greaterCond (d.reg y) (d.reg x)) (d.reg regVF)) x (d.reg y - d.reg x)) s := rfl

theorem exec_shl (x y : Reg) (s : State) :
    exec (.shl x y) s =
      complete (.shl x y) .shl
        (fun d => d.setFlagThenReg (shlFlag d.config.shlFlag (d.reg x)) x (d.reg x <<< 1)) s := rfl

theorem exec_sneReg (x y : Reg) (s : State) :
    exec (.sneReg x y) s =
      complete (.sneReg x y) .sneReg (fun d => d.skipIf (decide (d.reg x ≠ d.reg y))) s := rfl

theorem exec_ldI (nnn : Addr12) (s : State) :
    exec (.ldI nnn) s =
      complete (.ldI nnn) .ldI (fun d => { d with i := addrOperand nnn }) s := rfl

theorem exec_jpV0 (nnn : Addr12) (s : State) :
    exec (.jpV0 nnn) s =
      complete (.jpV0 nnn) .jpV0 (fun d => { d with pc := addrOperand nnn + (d.reg 0).setWidth 16 }) s := rfl

theorem exec_rnd (x : Reg) (nn : Byte) (s : State) :
    exec (.rnd x nn) s =
      complete (.rnd x nn) .rnd (fun d => d.setReg x (s.rnd &&& nn)) s := rfl

theorem exec_drw (x y : Reg) (n : Fin 16) (s : State) :
    exec (.drw x y n) s =
      completeUnless (.drw x y n) (s.dataFault n.val) .drw (fun d => d.blit x y n) s := rfl

theorem exec_keyPressedSkip (x : Reg) (s : State) :
    exec (.keyPressedSkip x) s =
      complete (.keyPressedSkip x) .unknown (fun d => d) s := rfl

theorem exec_keyNotPressedSkip (x : Reg) (s : State) :
    exec (.keyNotPressedSkip x) s =
      complete (.keyNotPressedSkip x) .unknown (fun d => d) s := rfl

theorem exec_ldVxDt (x : Reg) (s : State) :
    exec (.ldVxDt x) s =
      complete (.ldVxDt x) .ldVxDt (fun d => d.setReg x d.td) s := rfl

theorem exec_waitKey (x : Reg) (s : State) :
    exec (.waitKey x) s =
      complete (.waitKey x) .unknown (fun d => d) s := rfl

theorem exec_ldDtVx (x : Reg) (s : State) :
    exec (.ldDtVx x) s =
      complete (.ldDtVx x) .ldDtVx (fun d => { d with td := d.reg x }) s := rfl

theorem exec_ldStVx (x : Reg) (s : State) :
    exec (.ldStVx x) s =
      complete (.ldStVx x) .ldStVx (fun d => { d with ts := d.reg x }) s := rfl

theorem exec_addI (x : Reg) (s : State) :
    exec (.addI x) s =
      complete (.addI x) .addI
        (fun d =>
          let sum := d.i.toNat + (d.reg x).toNat
          { d.setReg regVF (addIFlag d.config.fx1eVfElse sum (d.reg regVF)) with i := BitVec.ofNat 16 sum }) s := rfl

theorem exec_fontAddr (x : Reg) (s : State) :
    exec (.fontAddr x) s =
      complete (.fontAddr x) .unknown (fun d => d) s := rfl

theorem exec_bcd (x : Reg) (s : State) :
    exec (.bcd x) s =
      completeUnless (.bcd x) (s.dataFault 3) .bcd
        (fun d => d.storeBytes (d.effAddr 0) (decimalDigits (d.reg x))) s := rfl

theorem exec_store (x : Reg) (s : State) :
    exec (.store x) s =
      completeUnless (.store x) (s.dataFault (regCount x)) .store
        (fun d => d.storeBytes (d.effAddr 0) (d.firstRegs (regCount x))) s := rfl

theorem exec_load (x : Reg) (s : State) :
    exec (.load x) s =
      completeUnless (.load x) (s.dataFault (regCount x)) .load
        (fun d => d.setRegsFrom 0 (d.mem.readList (d.effAddr 0) (regCount x))) s := rfl

theorem exec_unknown (op : Word) (s : State) :
    exec (.unknown op) s =
      complete (.unknown op) .unknown (fun d => d) s := rfl

end Sys2Proof.Machine
end

