-- ==== Sys2Proof/Laws/PerInstr.lean ====
section
/-! SUPPORT. Statements about every instruction as syntax, one lemma per constructor (LAWS.json). -/

namespace Sys2Proof.Laws.RowShape

/-- The word of an instruction has the fixed bits of its row of spec/opcode_table.json. -/
def Statement (i : Instr) : Prop := encode i &&& i.row.mask = i.row.pattern

theorem cls : Statement .cls := rfl

theorem ret : Statement .ret := rfl

theorem jp (nnn : Addr12) : Statement (.jp nnn) := by
  show encodeNnn 0x1 nnn &&& 0xF000#16 = 0x1000#16
  rw [and_F000, fieldMajor_encodeNnn]; rfl

theorem call (nnn : Addr12) : Statement (.call nnn) := by
  show encodeNnn 0x2 nnn &&& 0xF000#16 = 0x2000#16
  rw [and_F000, fieldMajor_encodeNnn]; rfl

theorem seImm (x : Reg) (nn : Byte) : Statement (.seImm x nn) := by
  show encodeXnn 0x3 x nn &&& 0xF000#16 = 0x3000#16
  rw [and_F000, fieldMajor_encodeXnn]; rfl

theorem sneImm (x : Reg) (nn : Byte) : Statement (.sneImm x nn) := by
  show encodeXnn 0x4 x nn &&& 0xF000#16 = 0x4000#16
  rw [and_F000, fieldMajor_encodeXnn]; rfl

theorem seReg (x y : Reg) : Statement (.seReg x y) := by
  show encodeXyn 0x5 x y 0x0 &&& 0xF00F#16 = 0x5000#16
  rw [and_F00F, fieldMajor_encodeXyn, fieldN_encodeXyn]; rfl

theorem ldImm (x : Reg) (nn : Byte) : Statement (.ldImm x nn) := by
  show encodeXnn 0x6 x nn &&& 0xF000#16 = 0x6000#16
  rw [and_F000, fieldMajor_encodeXnn]; rfl

theorem addImm (x : Reg) (nn : Byte) : Statement (.addImm x nn) := by
  show encodeXnn 0x7 x nn &&& 0xF000#16 = 0x7000#16
  rw [and_F000, fieldMajor_encodeXnn]; rfl

theorem ldReg (x y : Reg) : Statement (.ldReg x y) := by
  show encodeXyn 0x8 x y 0x0 &&& 0xF00F#16 = 0x8000#16
  rw [and_F00F, fieldMajor_encodeXyn, fieldN_encodeXyn]; rfl

theorem orReg (x y : Reg) : Statement (.orReg x y) := by
  show encodeXyn 0x8 x y 0x1 &&& 0xF00F#16 = 0x8001#16
  rw [and_F00F, fieldMajor_encodeXyn, fieldN_encodeXyn]; rfl

theorem andReg (x y : Reg) : Statement (.andReg x y) := by
  show encodeXyn 0x8 x y 0x2 &&& 0xF00F#16 = 0x8002#16
  rw [and_F00F, fieldMajor_encodeXyn, fieldN_encodeXyn]; rfl

theorem xorReg (x y : Reg) : Statement (.xorReg x y) := by
  show encodeXyn 0x8 x y 0x3 &&& 0xF00F#16 = 0x8003#16
  rw [and_F00F, fieldMajor_encodeXyn, fieldN_encodeXyn]; rfl

theorem addReg (x y : Reg) : Statement (.addReg x y) := by
  show encodeXyn 0x8 x y 0x4 &&& 0xF00F#16 = 0x8004#16
  rw [and_F00F, fieldMajor_encodeXyn, fieldN_encodeXyn]; rfl

theorem sub (x y : Reg) : Statement (.sub x y) := by
  show encodeXyn 0x8 x y 0x5 &&& 0xF00F#16 = 0x8005#16
  rw [and_F00F, fieldMajor_encodeXyn, fieldN_encodeXyn]; rfl

theorem shr (x y : Reg) : Statement (.shr x y) := by
  show encodeXyn 0x8 x y 0x6 &&& 0xF00F#16 = 0x8006#16
  rw [and_F00F, fieldMajor_encodeXyn, fieldN_encodeXyn]; rfl

theorem subn (x y : Reg) : Statement (.subn x y) := by
  show encodeXyn 0x8 x y 0x7 &&& 0xF00F#16 = 0x8007#16
  rw [and_F00F, fieldMajor_encodeXyn, fieldN_encodeXyn]; rfl

theorem shl (x y : Reg) : Statement (.shl x y) := by
  show encodeXyn 0x8 x y 0xE &&& 0xF00F#16 = 0x800E#16
  rw [and_F00F, fieldMajor_encodeXyn, fieldN_encodeXyn]; rfl

theorem sneReg (x y : Reg) : Statement (.sneReg x y) := by
  show encodeXyn 0x9 x y 0x0 &&& 0xF00F#16 = 0x9000#16
  rw [and_F00F, fieldMajor_encodeXyn, fieldN_encodeXyn]; rfl

theorem ldI (nnn : Addr12) : Statement (.ldI nnn) := by
  show encodeNnn 0xA nnn &&& 0xF000#16 = 0xA000#16
  rw [and_F000, fieldMajor_encodeNnn]; rfl

theorem jpV0 (nnn : Addr12) : Statement (.jpV0 nnn) := by
  show encodeNnn 0xB nnn &&& 0xF000#16 = 0xB000#16
  rw [and_F000, fieldMajor_encodeNnn]; rfl

theorem rnd (x : Reg) (nn : Byte) : Statement (.rnd x nn) := by
  show encodeXnn 0xC x nn &&& 0xF000#16 = 0xC000#16
  rw [and_F000, fieldMajor_encodeXnn]; rfl

theorem drw (x y : Reg) (n : Fin 16) : Statement (.drw x y n) := by
  show encodeXyn 0xD x y n &&& 0xF000#16 = 0xD000#16
  rw [and_F000, fieldMajor_encodeXyn]; rfl

theorem keyPressedSkip (x : Reg) : Statement (.keyPressedSkip x) := by
  show encodeXnn 0xE x 0x9E#8 &&& 0xF0FF#16 = 0xE09E#16
  rw [and_F0FF, fieldMajor_encodeXnn, fieldNn_encodeXnn]; rfl

theorem keyNotPressedSkip (x : Reg) : Statement (.keyNotPressedSkip x) := by
  show encodeXnn 0xE x 0xA1#8 &&& 0xF0FF#16 = 0xE0A1#16
  rw [and_F0FF, fieldMajor_encodeXnn, fieldNn_encodeXnn]; rfl

theorem ldVxDt (x : Reg) : Statement (.ldVxDt x) := by
  show encodeXnn 0xF x 0x07#8 &&& 0xF0FF#16 = 0xF007#16
  rw [and_F0FF, fieldMajor_encodeXnn, fieldNn_encodeXnn]; rfl

theorem waitKey (x : Reg) : Statement (.waitKey x) := by
  show encodeXnn 0xF x 0x0A#8 &&& 0xF0FF#16 = 0xF00A#16
  rw [and_F0FF, fieldMajor_encodeXnn, fieldNn_encodeXnn]; rfl

theorem ldDtVx (x : Reg) : Statement (.ldDtVx x) := by
  show encodeXnn 0xF x 0x15#8 &&& 0xF0FF#16 = 0xF015#16
  rw [and_F0FF, fieldMajor_encodeXnn, fieldNn_encodeXnn]; rfl

theorem ldStVx (x : Reg) : Statement (.ldStVx x) := by
  show encodeXnn 0xF x 0x18#8 &&& 0xF0FF#16 = 0xF018#16
  rw [and_F0FF, fieldMajor_encodeXnn, fieldNn_encodeXnn]; rfl

theorem addI (x : Reg) : Statement (.addI x) := by
  show encodeXnn 0xF x 0x1E#8 &&& 0xF0FF#16 = 0xF01E#16
  rw [and_F0FF, fieldMajor_encodeXnn, fieldNn_encodeXnn]; rfl

theorem fontAddr (x : Reg) : Statement (.fontAddr x) := by
  show encodeXnn 0xF x 0x29#8 &&& 0xF0FF#16 = 0xF029#16
  rw [and_F0FF, fieldMajor_encodeXnn, fieldNn_encodeXnn]; rfl

theorem bcd (x : Reg) : Statement (.bcd x) := by
  show encodeXnn 0xF x 0x33#8 &&& 0xF0FF#16 = 0xF033#16
  rw [and_F0FF, fieldMajor_encodeXnn, fieldNn_encodeXnn]; rfl

theorem store (x : Reg) : Statement (.store x) := by
  show encodeXnn 0xF x 0x55#8 &&& 0xF0FF#16 = 0xF055#16
  rw [and_F0FF, fieldMajor_encodeXnn, fieldNn_encodeXnn]; rfl

theorem load (x : Reg) : Statement (.load x) := by
  show encodeXnn 0xF x 0x65#8 &&& 0xF0FF#16 = 0xF065#16
  rw [and_F0FF, fieldMajor_encodeXnn, fieldNn_encodeXnn]; rfl

theorem unknown (op : Word) : Statement (.unknown op) := by simp [Statement, encode, Instr.row]

end Sys2Proof.Laws.RowShape
end

