-- ==== Sys2Proof/Tests/Slice0.lean ====
section
/-! SUPPORT. Tests of single words and single steps, then a witness for the hypotheses of each statement. Expected
results are those of spec/95_test_vectors.md (the vector's id stands in each comment) or of the rule named. -/

namespace Sys2Proof.Tests

open Sys2Proof.Machine

/-! ## Well-formedness: a word of another row is no `unknown` word -/

theorem test_wf_refuses_cls_word : (Instr.unknown 0x00E0#16).wellFormed = false := by decide
theorem test_wf_refuses_ret_word : (Instr.unknown 0x00EE#16).wellFormed = false := by decide
theorem test_wf_refuses_jump_word : (Instr.unknown 0x1234#16).wellFormed = false := by decide
theorem test_wf_refuses_skip_words :
    (Instr.unknown 0x5340#16).wellFormed = false ∧ (Instr.unknown 0x9340#16).wellFormed = false := by decide
theorem test_wf_refuses_alu_words :
    (Instr.unknown 0x8017#16).wellFormed = false ∧ (Instr.unknown 0x801E#16).wellFormed = false := by decide
theorem test_wf_refuses_misc_word : (Instr.unknown 0xF255#16).wellFormed = false := by decide
theorem test_wf_refuses_recognised_words :
    (Instr.unknown 0xE09E#16).wellFormed = false ∧ (Instr.unknown 0xE0A1#16).wellFormed = false ∧
      (Instr.unknown 0xF30A#16).wellFormed = false ∧ (Instr.unknown 0xF029#16).wellFormed = false := by decide
theorem test_wf_accepts_unknown_words :
    (Instr.unknown 0x0000#16).wellFormed = true ∧ (Instr.unknown 0x8018#16).wellFormed = true ∧
      (Instr.unknown 0xFFFF#16).wellFormed = true := by decide

/-! ## Decoding: words of 95_test_vectors.md and of 30_encoding.md R84 to R90, one for every constructor -/

theorem test_decode_system : decode 0x00E0#16 = .cls ∧ decode 0x00EE#16 = .ret := by decide
theorem test_decode_flow :
    decode 0x120C#16 = .jp 0x20C#12 ∧ decode 0x220E#16 = .call 0x20E#12 ∧ decode 0xBFFF#16 = .jpV0 0xFFF#12 := by
  decide
theorem test_decode_skips :
    decode 0x3F01#16 = .seImm 15 0x01#8 ∧ decode 0x4211#16 = .sneImm 2 0x11#8 ∧
      decode 0x5340#16 = .seReg 3 4 ∧ decode 0x9340#16 = .sneReg 3 4 := by decide
theorem test_decode_load_add :
    decode 0x6AFF#16 = .ldImm 10 0xFF#8 ∧ decode 0x7F02#16 = .addImm 15 0x02#8 ∧
      decode 0xA20E#16 = .ldI 0x20E#12 ∧ decode 0xC30F#16 = .rnd 3 0x0F#8 := by decide
theorem test_decode_alu_moves :
    decode 0x8010#16 = .ldReg 0 1 ∧ decode 0x8011#16 = .orReg 0 1 ∧ decode 0x8012#16 = .andReg 0 1 ∧
      decode 0x8013#16 = .xorReg 0 1 := by decide
theorem test_decode_alu_flags :
    decode 0x81F4#16 = .addReg 1 15 ∧ decode 0x8015#16 = .sub 0 1 ∧ decode 0x8276#16 = .shr 2 7 ∧
      decode 0x8017#16 = .subn 0 1 ∧ decode 0x820E#16 = .shl 2 0 := by decide
theorem test_decode_draw : decode 0xD231#16 = .drw 2 3 1 ∧ decode 0xDF1F#16 = .drw 15 1 15 := by decide
theorem test_decode_misc_timers :
    decode 0xF107#16 = .ldVxDt 1 ∧ decode 0xF015#16 = .ldDtVx 0 ∧ decode 0xF018#16 = .ldStVx 0 := by decide
theorem test_decode_misc_memory :
    decode 0xF21E#16 = .addI 2 ∧ decode 0xF033#16 = .bcd 0 ∧ decode 0xF155#16 = .store 1 ∧
      decode 0xFF65#16 = .load 15 := by decide
theorem test_decode_recognised :
    decode 0xE09E#16 = .keyPressedSkip 0 ∧ decode 0xE5A1#16 = .keyNotPressedSkip 5 ∧
      decode 0xF30A#16 = .waitKey 3 ∧ decode 0xF029#16 = .fontAddr 0 := by decide
/-- D-CYC-1, D-CYC-2, D-CYC-3 and D-CYC-8. -/
theorem test_decode_unknown :
    decode 0x0000#16 = .unknown 0x0000#16 ∧ decode 0x00E1#16 = .unknown 0x00E1#16 ∧
      decode 0x5341#16 = .unknown 0x5341#16 ∧ decode 0x9AB1#16 = .unknown 0x9AB1#16 ∧
      decode 0x8018#16 = .unknown 0x8018#16 ∧ decode 0xE000#16 = .unknown 0xE000#16 ∧
      decode 0xFFFF#16 = .unknown 0xFFFF#16 := by decide
theorem test_decode_bytes :
    decodeBytes [0x6A#8, 0x55#8, 0x12#8] = .ok (.ldImm 10 0x55#8, [0x12#8]) := rfl
theorem test_decode_bytes_truncated : decodeBytes [0x6A#8] = .error (.truncated 1) := rfl
theorem test_decode_table_word : decodeTableWord 16 0x6A55 = some (.ldImm 10 0x55#8) := by decide
theorem test_decode_table_word_last_row : decodeTableWord 16 0x0000 = some (.unknown 0x0000#16) := by decide

/-- The rows of the opcode table do not overlap. -/
theorem test_rows_disjoint :
    opcodeRows.Pairwise fun a b => a.pattern &&& b.mask &&& a.mask ≠ b.pattern &&& a.mask &&& b.mask := by decide

/-! ## One step -/

/-- The state before a vector: after reset, `PC = 0x200`, the listed registers. -/
def start (regs : List (Reg × Byte)) : State :=
  regs.foldl (fun s p => s.setReg p.1 p.2) { State.reset with pc := 0x200#16 }

/-- The bytes at `a` and upward. -/
def withBytes (s : State) (a : Nat) (bytes : List Byte) : State := s.storeBytes a bytes

/-- A state with the other setting of every parameter that changes a flag. -/
def asym (s : State) : State :=
  { s with config := { s.config with flagMode := .referenceAsymmetric, fx1eVfElse := .clear, shlFlag := .highBit } }

/-- The next state of a step that runs the word `w`; none when the step stops. -/
def after (s : State) (w : Nat) : Option State :=
  match step (s.withFetchWord 16 w) with
  | .next t => some t
  | .fault _ => none
  | .refused _ => none

/-- `PC`, `V[x]`, `VF` of the next state. -/
def look (x : Reg) (o : Option State) : Option (Word × Byte × Byte) :=
  o.map fun t => (t.pc, t.reg x, t.reg 15)

/-- `PC`, `SP`, `Stack[k]`, token of the next state. -/
def lookFlow (k : Nat) (o : Option State) : Option (Word × BitVec 8 × Word × Token) :=
  o.map fun t => (t.pc, t.sp, t.slot k, t.lastClass)

/-- The framebuffer at the listed cells, and `VF`. -/
def lookCells (cells : List (Fin 32 × Fin 64)) (o : Option State) : Option (List Bool × Byte) :=
  o.map fun t => (cells.map fun p => t.cell p.1 p.2, t.reg 15)

/-- `count` bytes at `a`, `I` and the fault. -/
def lookMem (a count : Nat) (o : Option State) : Option (List Byte × Word × Option FaultRecord) :=
  o.map fun t => (t.mem.readList a count, t.i, t.fault)

/-- `TD`, `TS`, `PC`, `lastOp`, `lastClass`. -/
def lookTimers (o : Option State) : Option (Byte × Byte × Word × Word × Token) :=
  o.map fun t => (t.td, t.ts, t.pc, t.lastOp, t.lastClass)

/-- D-CYC-1. -/
theorem test_unknown_ticks :
    lookTimers (after { start [] with td := 7#8, ts := 1#8 } 0x0000) =
      some (6#8, 0#8, 0x202#16, 0x0000#16, .unknown) := by decide
/-- D-CYC-4: the key is held. -/
theorem test_keyPressedSkip_no_skip :
    look 0 (after ((start [(0, 5#8)]).keyPress 5) 0xE09E) = some (0x202#16, 5#8, 0#8) := by decide
/-- D-CYC-5. -/
theorem test_keyNotPressedSkip_no_skip :
    look 0 (after (start [(0, 5#8)]) 0xE0A1) = some (0x202#16, 5#8, 0#8) := by decide
/-- D-CYC-6. -/
theorem test_waitKey_no_wait :
    look 3 (after ((start [(3, 0x77#8)]).keyPress 1) 0xF30A) = some (0x202#16, 0x77#8, 0#8) := by decide
/-- D-CYC-7. -/
theorem test_fontAddr_leaves_i :
    (after { start [(0, 7#8)] with i := 0x123#16 } 0xF029).map (fun t => (t.i, t.lastClass)) =
      some (0x123#16, .unknown) := by decide
/-- D-CYC-9. -/
theorem test_odd_pc :
    look 10 (after { start [] with pc := 0x201#16 } 0x6A55) = some (0x203#16, 0x55#8, 0#8) := by decide
/-- D-CYC-11. -/
theorem test_fetch_fault :
    (after { start [] with pc := 0xFFF#16, td := 5#8 } 0).map (fun t => (t.pc, t.td, t.lastClass, t.fault)) =
      some (0xFFF#16, 5#8, .none, some ⟨.addressOutOfRange 0x1000, 0xFFF#16, none⟩) := by decide
/-- D-CYC-12. -/
theorem test_faulted_step_stops :
    after { start [] with fault := some ⟨.stackOverflow, 0x200#16, some 0x2300#16⟩ } 0x6005 = none := rfl

/-- D-FLOW-1. -/
theorem test_cls :
    lookCells [(3, 5), (31, 63)]
      (after { start [(15, 1#8)] with fb := Framebuffer.flip Framebuffer.clear 3 5 } 0x00E0) =
        some ([false, false], 1#8) := by decide
/-- D-FLOW-2. -/
theorem test_ret :
    lookFlow 0 (after ({ start [] with sp := 1#8, pc := 0x210#16 }.setSlot 0 0x206#16) 0x00EE) =
      some (0x206#16, 0#8, 0#16, .ret) := by decide
/-- D-FLOW-3. -/
theorem test_ret_underflow :
    (after (start []) 0x00EE).map (fun t => (t.pc, t.lastClass, t.fault)) =
      some (0x200#16, .none, some ⟨.stackUnderflow, 0x200#16, some 0x00EE#16⟩) := by decide
/-- D-FLOW-4. -/
theorem test_jp_self : lookFlow 0 (after (start []) 0x1200) = some (0x200#16, 0#8, 0#16, .jpSelf) := by decide
/-- D-FLOW-5. -/
theorem test_jp_odd : lookFlow 0 (after (start []) 0x1201) = some (0x201#16, 0#8, 0#16, .jp) := by decide
/-- D-FLOW-9. -/
theorem test_call_last_slot :
    lookFlow 15 (after { start [] with sp := 15#8 } 0x2300) = some (0x300#16, 16#8, 0x202#16, .call) := by decide
/-- D-FLOW-8. -/
theorem test_call_overflow :
    (after { start [] with sp := 16#8 } 0x2300).map (fun t => (t.pc, t.sp, t.fault)) =
      some (0x200#16, 16#8, some ⟨.stackOverflow, 0x200#16, some 0x2300#16⟩) := by decide
/-- D-FLOW-11. -/
theorem test_jpV0_not_truncated :
    lookFlow 0 (after (start [(0, 0xFF#8)]) 0xBFFF) = some (0x10FE#16, 0#8, 0#16, .jpV0) := by decide
/-- D-FLOW-13. -/
theorem test_jpV0_uses_v0 :
    lookFlow 0 (after (start [(5, 9#8), (0, 2#8)]) 0xB500) = some (0x502#16, 0#8, 0#16, .jpV0) := by decide

/-- D-SKIP-1 and D-SKIP-2. -/
theorem test_seImm :
    look 1 (after (start []) 0x3100) = some (0x204#16, 0#8, 0#8) ∧
      look 1 (after (start [(1, 4#8)]) 0x3100) = some (0x202#16, 4#8, 0#8) := by decide
/-- D-SKIP-3 and D-SKIP-4. -/
theorem test_sneImm :
    look 2 (after (start [(2, 0x10#8)]) 0x4211) = some (0x204#16, 0x10#8, 0#8) ∧
      look 2 (after (start [(2, 0x10#8)]) 0x4210) = some (0x202#16, 0x10#8, 0#8) := by decide
/-- D-SKIP-5 and D-SKIP-6. -/
theorem test_seReg :
    look 3 (after (start [(3, 7#8), (4, 7#8)]) 0x5340) = some (0x204#16, 7#8, 0#8) ∧
      look 3 (after (start [(3, 7#8), (4, 8#8)]) 0x5340) = some (0x202#16, 7#8, 0#8) := by decide
/-- D-SKIP-8 and D-SKIP-9. -/
theorem test_sneReg :
    look 3 (after (start [(3, 7#8), (4, 8#8)]) 0x9340) = some (0x204#16, 7#8, 0#8) ∧
      look 3 (after (start [(3, 7#8), (4, 7#8)]) 0x9340) = some (0x202#16, 7#8, 0#8) := by decide

/-- D-LD-2. -/
theorem test_ldImm : look 15 (after (start []) 0x6FAB) = some (0x202#16, 0xAB#8, 0xAB#8) := by decide
/-- D-LD-5: no flag, either way. -/
theorem test_addImm_wraps : look 1 (after (start [(1, 0xFF#8), (15, 1#8)]) 0x7101) = some (0x202#16, 0#8, 1#8) := by
  decide
/-- D-LD-8. -/
theorem test_ldI :
    (after { start [] with i := 0xFFFF#16 } 0xA20E).map (fun t => t.i) = some 0x020E#16 := by decide
/-- D-LD-10. -/
theorem test_rnd : look 3 (after { start [] with rnd := 0xA7#8 } 0xC30F) = some (0x202#16, 0x07#8, 0#8) := by decide

/-- D-ALU-1. -/
theorem test_ldReg : look 0 (after (start [(1, 0x2A#8)]) 0x8010) = some (0x202#16, 0x2A#8, 0#8) := by decide
/-- D-ALU-2. -/
theorem test_orReg :
    look 0 (after (start [(0, 0xF0#8), (1, 0x0F#8), (15, 1#8)]) 0x8011) = some (0x202#16, 0xFF#8, 1#8) := by decide
/-- D-ALU-3. -/
theorem test_andReg :
    look 0 (after (start [(0, 0xF3#8), (1, 0x3C#8)]) 0x8012) = some (0x202#16, 0x30#8, 0#8) := by decide
/-- D-ALU-4. -/
theorem test_xorReg :
    look 0 (after (start [(0, 0xFF#8), (1, 0x0F#8)]) 0x8013) = some (0x202#16, 0xF0#8, 0#8) := by decide
/-- D-ALU-7, both settings of `FLAG_MODE`. -/
theorem test_addReg_no_carry :
    look 0 (after (start [(0, 0x0A#8), (1, 5#8), (15, 1#8)]) 0x8014) = some (0x202#16, 0x0F#8, 0#8) ∧
      look 0 (after (asym (start [(0, 0x0A#8), (1, 5#8), (15, 1#8)])) 0x8014) = some (0x202#16, 0x0F#8, 1#8) := by
  decide
/-- D-ALU-11 and D-ALU-12. -/
theorem test_addReg_with_vf :
    look 1 (after (start [(1, 200#8), (15, 100#8)]) 0x81F4) = some (0x202#16, 44#8, 1#8) ∧
      look 15 (after (start [(1, 100#8), (15, 200#8)]) 0x8F14) = some (0x202#16, 44#8, 44#8) := by decide
/-- D-ALU-16, both settings of `FLAG_MODE`. -/
theorem test_sub_equal :
    look 0 (after (start [(0, 5#8), (1, 5#8), (15, 1#8)]) 0x8015) = some (0x202#16, 0#8, 0#8) ∧
      look 0 (after (asym (start [(0, 5#8), (1, 5#8), (15, 1#8)])) 0x8015) = some (0x202#16, 0#8, 1#8) := by decide
/-- D-ALU-14. -/
theorem test_sub_greater :
    look 0 (after (start [(0, 0x0A#8), (1, 3#8)]) 0x8015) = some (0x202#16, 7#8, 1#8) := by decide
/-- D-ALU-20. -/
theorem test_shr_ignores_y :
    look 2 (after (start [(2, 1#8), (7, 0xFF#8)]) 0x8276) = some (0x202#16, 0#8, 1#8) := by decide
/-- D-ALU-22. -/
theorem test_shr_vf : look 15 (after (start [(15, 3#8)]) 0x8F06) = some (0x202#16, 1#8, 1#8) := by decide
/-- D-ALU-23. -/
theorem test_subn_greater :
    look 0 (after (start [(0, 3#8), (1, 0x0A#8)]) 0x8017) = some (0x202#16, 7#8, 1#8) := by decide
/-- D-ALU-24, both settings of `FLAG_MODE`. -/
theorem test_subn_less :
    look 0 (after (start [(0, 0x0A#8), (1, 3#8), (15, 1#8)]) 0x8017) = some (0x202#16, 0xF9#8, 0#8) ∧
      look 0 (after (asym (start [(0, 0x0A#8), (1, 3#8), (15, 1#8)])) 0x8017) = some (0x202#16, 0xF9#8, 1#8) := by
  decide
/-- D-ALU-27, both settings of `SHL_FLAG`. -/
theorem test_shl_low_bit :
    look 2 (after (start [(2, 1#8)]) 0x820E) = some (0x202#16, 2#8, 1#8) ∧
      look 2 (after (asym (start [(2, 1#8)])) 0x820E) = some (0x202#16, 2#8, 0#8) := by decide
/-- D-ALU-29 under `HighBit`. -/
theorem test_shl_high_bit : look 2 (after (asym (start [(2, 0x80#8)])) 0x820E) = some (0x202#16, 0#8, 1#8) := by
  decide

/-- D-DRW-1: wrap on both axes. -/
theorem test_drw_wraps :
    lookCells [(31, 59), (31, 60), (31, 63), (31, 0), (31, 3), (31, 4), (0, 60), (0, 61), (0, 3)]
      (after (withBytes { start [(0, 60#8), (1, 31#8)] with i := 0x20E#16 } 0x20E [0xFF#8, 0x81#8]) 0xD012) =
        some ([false, true, true, true, true, false, true, false, true], 0#8) := by decide
/-- D-DRW-6: a collision at (0, 3). -/
theorem test_drw_collision :
    lookCells [(0, 2), (0, 3), (0, 4)]
      (after (withBytes { start [] with i := 0x205#16, fb := Framebuffer.flip Framebuffer.clear 0 3 } 0x205
        [0x18#8]) 0xD231) = some ([false, false, true], 1#8) := by decide

/-- D-MISC-1. -/
theorem test_ldVxDt : look 1 (after { start [] with td := 3#8 } 0xF107) = some (0x202#16, 2#8, 0#8) := by decide
/-- D-MISC-4. -/
theorem test_ldDtVx :
    lookTimers (after { start [(0, 3#8)] with td := 9#8 } 0xF015) =
      some (3#8, 0#8, 0x202#16, 0xF015#16, .ldDtVx) := by decide
/-- D-MISC-5. -/
theorem test_ldStVx :
    lookTimers (after (start [(0, 3#8)]) 0xF018) = some (0#8, 3#8, 0x202#16, 0xF018#16, .ldStVx) := by decide
/-- D-MISC-9. -/
theorem test_addI_wraps :
    (after { start [(0, 0xFF#8)] with i := 0xFFFF#16 } 0xF01E).map (fun t => (t.i, t.reg 15)) =
      some (0x00FE#16, 1#8) := by decide
/-- D-MISC-10, both settings of `FX1E_VF_ELSE`. -/
theorem test_addI_no_flag :
    (after { start [(0, 1#8), (15, 1#8)] with i := 0x100#16 } 0xF01E).map (fun t => (t.i, t.reg 15)) =
        some (0x101#16, 1#8) ∧
      (after (asym { start [(0, 1#8), (15, 1#8)] with i := 0x100#16 }) 0xF01E).map (fun t => (t.i, t.reg 15)) =
        some (0x101#16, 0#8) := by decide
/-- D-MISC-14. -/
theorem test_bcd_at_the_end :
    lookMem 0xFFD 3 (after { start [(0, 255#8)] with i := 0xFFD#16 } 0xF033) =
      some ([2#8, 5#8, 5#8], 0xFFD#16, none) := by decide
/-- D-MISC-15. -/
theorem test_bcd_fault :
    lookMem 0xFFE 2 (after { start [(0, 255#8)] with i := 0xFFE#16 } 0xF033) =
      some ([0#8, 0#8], 0xFFE#16, some ⟨.addressOutOfRange 0x1000, 0x200#16, some 0xF033#16⟩) := by decide
/-- D-MISC-16. -/
theorem test_store :
    lookMem 0x208 3 (after { start [(0, 0x12#8), (1, 0x0A#8), (2, 0x77#8)] with i := 0x208#16 } 0xF155) =
      some ([0x12#8, 0x0A#8, 0#8], 0x208#16, none) := by decide
/-- D-MISC-18. -/
theorem test_store_fault :
    lookMem 0xFFF 1 (after { start [(0, 9#8)] with i := 0xFFF#16 } 0xF155) =
      some ([0#8], 0xFFF#16, some ⟨.addressOutOfRange 0x1000, 0x200#16, some 0xF155#16⟩) := by decide
/-- D-MISC-19. -/
theorem test_load :
    (after (withBytes { start [(3, 9#8)] with i := 0x300#16 } 0x300 [2#8, 5#8, 4#8]) 0xF265).map
      (fun t => ([t.reg 0, t.reg 1, t.reg 2, t.reg 3], t.i)) = some ([2#8, 5#8, 4#8, 9#8], 0x300#16) := by decide
/-- D-MISC-21. -/
theorem test_load_fault :
    (after { start [(0, 7#8)] with i := 0xFF1#16 } 0xFF65).map (fun t => (t.reg 0, t.fault)) =
      some (7#8, some ⟨.addressOutOfRange 0x1000, 0x200#16, some 0xFF65#16⟩) := by decide

/-! ## Host operations -/

/-- D-HOST-6. -/
theorem test_load_keeps_the_tail :
    (((State.reset.load [0x60#8, 1#8, 0x61#8, 2#8]).1.load [0x12#8, 0#8]).1.mem.readList 0x200 4) =
      [0x12#8, 0#8, 0x61#8, 2#8] := by decide
/-- D-HOST-7. -/
theorem test_reset_keeps_memory :
    ((State.reset.load [0x12#8]).1.perform .reset).1.mem = [(0x200, 0x12#8)] ∧
      ((State.reset.load [0x12#8]).1.perform .reset).1.pc = 0#16 := by decide
/-- D-HOST-8. -/
theorem test_keys :
    ((State.reset.keyPress 3).keyPress 3).key 3 = true ∧ ((State.reset.keyPress 3).keyRelease 3).key 3 = false := by
  decide
/-- D-HOST-9. -/
theorem test_step_from_reset : (State.reset.hostStep 0#8).pc = 2#16 ∧
    (State.reset.hostStep 0#8).lastClass = .unknown := by decide
/-- The launch sequence of 70_reset_and_hazards.md R245. -/
theorem test_launch : (State.reset.launch [0x60#8, 5#8]).1.pc = 0x200#16 := by decide
/-- 60_exceptions.md R210. -/
theorem test_codes :
    (FaultCause.addressOutOfRange 0x1000).code = 1 ∧ FaultCause.stackOverflow.code = 2 ∧
      FaultCause.stackUnderflow.code = 3 ∧ (HostResult.loadOutOfBounds 3585).code = some 4 := by decide

/-! ## Witnesses: states and operands that meet the hypotheses of each statement, clause by clause, at the boundary
values of their ranges -/

theorem start_slot (k : Nat) : (start []).slot k = 0#16 := by
  show (List.replicate 16 0#16).getD k 0#16 = 0#16
  rw [List.getD_eq_getElem?_getD, List.getElem?_replicate]; split <;> rfl

theorem witness_DecodeOfEncode :
    (Instr.unknown 0x0000#16).wellFormed = true ∧ (Instr.drw 15 15 15).wellFormed = true := by decide

/-- A step that completes, of an unknown word and of a known one; the second one writes no timer and no `PC`. -/
theorem witness_completed_cycles :
    (∃ s t, s.fault = none ∧ s.fetch = .ok 0x8018#16 ∧ step s = .next t ∧ t.fault = none ∧
      unknownWord 0x8018#16 = true) ∧
    (∃ s t, s.fault = none ∧ s.fetch = .ok 0x6005#16 ∧ step s = .next t ∧ t.fault = none ∧
      unknownWord 0x6005#16 = false ∧ (∀ x, decode 0x6005#16 ≠ .ldDtVx x) ∧ (∀ x, decode 0x6005#16 ≠ .ldStVx x) ∧
      (∀ x nn, decode 0x6005#16 ≠ .rnd x nn) ∧ ¬ writesPc (decode 0x6005#16)) := by
  refine ⟨⟨(start []).withFetchWord 16 0x8018, _, rfl, rfl, rfl, rfl, by decide⟩,
    ⟨(start []).withFetchWord 16 0x6005, _, rfl, rfl, rfl, rfl, by decide, ?_, ?_, ?_, ?_⟩⟩
  · intro x h; rw [show decode 0x6005#16 = .ldImm 0 5#8 from rfl] at h; cases h
  · intro x h; rw [show decode 0x6005#16 = .ldImm 0 5#8 from rfl] at h; cases h
  · intro x nn h; rw [show decode 0x6005#16 = .ldImm 0 5#8 from rfl] at h; cases h
  · exact id

/-- The timer writes complete too. -/
theorem witness_TimersCountCycles :
    (∃ s t, s.fault = none ∧ s.fetch = .ok 0xF015#16 ∧ step s = .next t ∧ t.fault = none ∧
      decode 0xF015#16 = .ldDtVx 0) ∧
    (∃ s t, s.fault = none ∧ s.fetch = .ok 0xF018#16 ∧ step s = .next t ∧ t.fault = none ∧
      decode 0xF018#16 = .ldStVx 0) :=
  ⟨⟨(start []).withFetchWord 16 0xF015, _, rfl, rfl, rfl, rfl, rfl⟩,
    ⟨(start []).withFetchWord 16 0xF018, _, rfl, rfl, rfl, rfl, rfl⟩⟩

/-- At the last address a word can be fetched from. -/
theorem witness_StepRunsTheFetchedInstruction :
    ∃ (s : State) (op : Word), s.fault = none ∧ s.pc.toNat = 0xFFE ∧ s.mem.wf = true ∧
      op.toNat = (s.mem.read s.pc.toNat).toNat * 256 + (s.mem.read (s.pc.toNat + 1)).toNat :=
  ⟨{ start [] with pc := 0xFFE#16, mem := [(0xFFE, 0x60#8), (0xFFF, 0x01#8)] }, 0x6001#16, by decide⟩

theorem witness_FetchFault :
    (∃ s : State, s.fault = none ∧ s.pc.toNat = 0xFFF) ∧ (∃ s : State, s.fault = none ∧ s.pc.toNat = 0x1000) ∧
      (∃ s : State, s.fault = none ∧ s.pc.toNat = 0xFFE) :=
  ⟨⟨{ start [] with pc := 0xFFF#16 }, by decide⟩, ⟨{ start [] with pc := 0x1000#16 }, by decide⟩,
    ⟨{ start [] with pc := 0xFFE#16 }, by decide⟩⟩

theorem witness_FaultedMachineDoesNotStep : ∃ (s : State) (r : FaultRecord), s.fault = some r :=
  ⟨{ start [] with fault := some ⟨.stackUnderflow, 0x200#16, some 0x00EE#16⟩ }, _, rfl⟩

theorem witness_UnfaultedStepCompletes : (start []).fault = none := rfl

/-- A fault after the fetch, and a fault of the fetch. -/
theorem witness_FaultsCommitNothing :
    (∃ s t r, s.fault = none ∧ step s = .next t ∧ t.fault = some r ∧ s.fetch = .ok 0x00EE#16) ∧
    (∃ s t r c, s.fault = none ∧ step s = .next t ∧ t.fault = some r ∧ s.fetch = .error c) :=
  ⟨⟨(start []).withFetchWord 16 0x00EE, _, _, rfl, rfl, rfl, rfl⟩,
    ⟨{ start [] with pc := 0xFFF#16 }, _, _, _, rfl, rfl, rfl, rfl⟩⟩

/-- Every cause of `FaultConditions` arises, at the lowest value that raises it. -/
theorem witness_FaultConditions :
    (∃ s t r, s.fault = none ∧ s.fetch = .ok 0x2300#16 ∧ step s = .next t ∧ t.fault = some r ∧
      r.cause = .stackOverflow) ∧
    (∃ s t r, s.fault = none ∧ s.fetch = .ok 0x00EE#16 ∧ step s = .next t ∧ t.fault = some r ∧
      r.cause = .stackUnderflow) ∧
    (∀ op ∈ [0xD012#16, 0xF033#16, 0xF155#16, 0xF165#16],
      ∃ s t r, s.fault = none ∧ s.fetch = .ok op ∧ step s = .next t ∧ t.fault = some r ∧
        r.cause = .addressOutOfRange 0x1000) := by
  refine ⟨⟨({ start [] with sp := 16#8 } : State).withFetchWord 16 0x2300, _, _, rfl, rfl, rfl, rfl, rfl⟩,
    ⟨(start []).withFetchWord 16 0x00EE, _, _, rfl, rfl, rfl, rfl, rfl⟩, ?_⟩
  intro op hop
  simp only [List.mem_cons, List.not_mem_nil, or_false] at hop
  rcases hop with rfl | rfl | rfl | rfl
  · exact ⟨({ start [] with i := 0xFFF#16 } : State).withFetchWord 16 0xD012, _, _, rfl, rfl, rfl, rfl, rfl⟩
  · exact ⟨({ start [] with i := 0xFFE#16 } : State).withFetchWord 16 0xF033, _, _, rfl, rfl, rfl, rfl, rfl⟩
  · exact ⟨({ start [] with i := 0xFFF#16 } : State).withFetchWord 16 0xF155, _, _, rfl, rfl, rfl, rfl, rfl⟩
  · exact ⟨({ start [] with i := 0xFFF#16 } : State).withFetchWord 16 0xF165, _, _, rfl, rfl, rfl, rfl, rfl⟩

/-- A step that changes a register, `I`, the stack, memory or the framebuffer. -/
theorem witness_OnlyListedInstructionsWrite :
    (∃ s t, s.fetch = .ok 0x6005#16 ∧ step s = .next t ∧ t.reg 0 ≠ s.reg 0) ∧
    (∃ s t, s.fetch = .ok 0xA300#16 ∧ step s = .next t ∧ t.i ≠ s.i) ∧
    (∃ s t, s.fetch = .ok 0x2300#16 ∧ step s = .next t ∧ t.sp ≠ s.sp) ∧
    (∃ s t, s.fetch = .ok 0xF055#16 ∧ step s = .next t ∧ t.mem.read 0xFFF ≠ s.mem.read 0xFFF) ∧
    (∃ s t, s.fetch = .ok 0x00E0#16 ∧ step s = .next t ∧ t.cell 0 0 ≠ s.cell 0 0) :=
  ⟨⟨(start []).withFetchWord 16 0x6005, _, rfl, rfl, by decide⟩,
    ⟨(start []).withFetchWord 16 0xA300, _, rfl, rfl, by decide⟩,
    ⟨(start []).withFetchWord 16 0x2300, _, rfl, rfl, by decide⟩,
    ⟨({ start [(0, 5#8)] with i := 0xFFF#16 } : State).withFetchWord 16 0xF055, _, rfl, rfl, by decide⟩,
    ⟨({ start [] with fb := Framebuffer.flip Framebuffer.clear 0 0 } : State).withFetchWord 16 0x00E0, _, rfl, rfl,
      by decide⟩⟩

theorem witness_JumpToSelfIsAFixedPoint :
    ∃ s t, s.fault = none ∧ step s = .next t ∧ t.fault = none ∧ t.lastClass = .jpSelf :=
  ⟨(start []).withFetchWord 16 0x1200, _, rfl, rfl, rfl, rfl⟩

theorem witness_StoredBytesAreFetchedNext :
    ∃ (x : Reg) (s : State), s.fault = none ∧ s.mem.wf = true ∧ 1 ≤ x.val ∧ s.i.toNat + x.val = 0xFFF ∧
      s.i.toNat = s.pc.toNat + 2 :=
  ⟨1, { start [] with pc := 0xFFC#16, i := 0xFFE#16 }, by decide⟩

theorem witness_PowerOnMeetsTheInvariants :
    Config.standard.wf = true ∧ ({ Config.standard with stackDepth := 255 } : Config).wf = true := by decide

/-- A state of both invariants that steps, with one slot in use. -/
theorem witness_invariants :
    ∃ s t, s.Inv ∧ s.PcBounded ∧ step s = .next t := by
  refine ⟨(start []).withFetchWord 16 0x00E0, _, ⟨rfl, rfl, by decide, fun k _ => start_slot k, by decide⟩,
    ⟨by decide, fun k => ?_⟩, rfl⟩
  show ((start []).slot k).toNat ≤ 0x1000
  rw [start_slot]; decide

theorem witness_RandomByteReachesOnlyRnd :
    ∃ (s : State) (op : Word), s.fetch = .ok op ∧ ∀ x nn, decode op ≠ .rnd x nn :=
  ⟨(start []).withFetchWord 16 0x00E0, 0x00E0#16, rfl, fun _ _ h => by
    rw [show decode 0x00E0#16 = .cls from rfl] at h; cases h⟩

theorem witness_RetPops : 0 < ({ start [] with sp := 1#8 } : State).sp.toNat := by decide

theorem witness_RetOnEmptyStackFaults : (start []).sp.toNat = 0 := rfl

theorem witness_CallPushesAndJumps :
    ∃ s : State, s.sp.toNat + 1 = s.config.stackDepth ∧ s.stack.length = s.config.stackDepth ∧
      s.config.stackDepth = 255 :=
  ⟨{ State.powerOn { Config.standard with stackDepth := 255 } LowMemInit.zeros with sp := 254#8 },
    rfl, List.length_replicate, rfl⟩

theorem witness_CallBeyondCapacityFaults :
    ({ start [] with sp := 16#8 } : State).config.stackDepth = ({ start [] with sp := 16#8 } : State).sp.toNat := rfl

theorem witness_CallThenReturnRoundTrip :
    ∃ s : State, s.Inv ∧ s.sp.toNat + 1 = s.config.stackDepth :=
  ⟨{ start [] with sp := 15#8 }, ⟨rfl, rfl, by decide, fun k _ => start_slot k, by decide⟩, rfl⟩

/-- Both sides of the carry, under both settings of `FLAG_MODE`. -/
theorem witness_AddWithCarryFlag :
    (let s := start [(0, 100#8), (1, 156#8)]; (0 : Reg) ≠ 15 ∧ 255 < (s.reg 0).toNat + (s.reg 1).toNat) ∧
    (let s := start [(0, 100#8), (1, 155#8)]; (0 : Reg) ≠ 15 ∧ (s.reg 0).toNat + (s.reg 1).toNat ≤ 255 ∧
      s.config.flagMode = .symmetric ∧ (asym s).config.flagMode = .referenceAsymmetric) := by decide

/-- Both sides of the strict comparison, equal operands among them. -/
theorem witness_SubtractWithStrictFlag :
    (let s := start [(0, 6#8), (1, 5#8)]; (0 : Reg) ≠ 15 ∧ (s.reg 1).toNat < (s.reg 0).toNat) ∧
    (let s := start [(0, 5#8), (1, 6#8)]; (0 : Reg) ≠ 15 ∧ (s.reg 0).toNat < (s.reg 1).toNat) ∧
    (let s := start [(0, 5#8), (1, 5#8)]; (0 : Reg) ≠ 15 ∧ (s.reg 0).toNat ≤ (s.reg 1).toNat ∧
      (s.reg 1).toNat ≤ (s.reg 0).toNat) := by decide

theorem witness_ShiftsInPlace :
    (0 : Reg) ≠ 15 ∧ (start []).config.shlFlag = .nonZero ∧ (asym (start [])).config.shlFlag = .highBit := by decide

/-- The last sprite that fits, and the empty sprite at an address outside memory. -/
theorem witness_DrawFlipsTheCoveredCells :
    (let s := ({ start [] with i := 0xFF1#16 } : State); s.i.toNat + (15 : Fin 16).val - 1 = 0xFFF) ∧
    (let s := ({ start [] with i := 0xFFFF#16 } : State); (0 : Fin 16).val = 0 ∨ s.i.toNat + (0 : Fin 16).val - 1 ≤ 0xFFF) := by
  decide

/-- A covered cell that is set, a covered cell that is clear, and a cell that is not covered. -/
theorem witness_Covered :
    (let s := ({ start [] with i := 0x300#16, mem := [(0x300, 0xC0#8)], fb := Framebuffer.flip Framebuffer.clear 0 0 } : State)
     (Covered s 0 0 1 0 0 ∧ s.cell 0 0 = true) ∧ (Covered s 0 0 1 0 1 ∧ s.cell 0 1 = false) ∧
       ¬ Covered s 0 0 0 0 0) := by
  refine ⟨⟨⟨0, 7, by decide⟩, by decide⟩, ⟨⟨0, 6, by decide⟩, by decide⟩, ?_⟩
  rintro ⟨r, b, h, -⟩
  exact absurd h (Nat.not_lt_zero r)

theorem witness_DrawTwiceRestoresTheFramebuffer :
    ∃ s t, s.fault = none ∧ exec (.drw 15 1 15) s = .next t ∧ t.fault = none :=
  ⟨start [], _, rfl, rfl, rfl⟩

theorem witness_DrawOutOfRangeFaults :
    ∃ (n : Fin 16) (s : State), 0 < n.val ∧ s.i.toNat + n.val - 1 = 0x1000 :=
  ⟨1, { start [] with i := 0x1000#16 }, by decide⟩

/-- The sums 0xFFF and 0x1000, under both settings of `FX1E_VF_ELSE`. -/
theorem witness_AddToAddressRegister :
    (let s := ({ start [(0, 1#8)] with i := 0xFFF#16 } : State); 0xFFF < s.i.toNat + (s.reg 0).toNat) ∧
    (let s := ({ start [(0, 1#8)] with i := 0xFFE#16 } : State); s.i.toNat + (s.reg 0).toNat ≤ 0xFFF ∧
      s.config.fx1eVfElse = .unchanged ∧ (asym s).config.fx1eVfElse = .clear) := by decide

/-- The last address at which each memory instruction fits. -/
theorem witness_memory_instructions_fit :
    (let s := ({ start [] with i := 0xFFD#16 } : State); s.mem.wf = true ∧ s.i.toNat + 2 = 0xFFF) ∧
    (let s := ({ start [] with i := 0xFF0#16 } : State); s.mem.wf = true ∧ s.i.toNat + (15 : Reg).val = 0xFFF) ∧
    (let s := ({ start [] with i := 0xFFF#16 } : State); s.mem.wf = true ∧ s.i.toNat + (0 : Reg).val = 0xFFF) := by
  decide

/-- The first address at which each does not. -/
theorem witness_MemoryInstructionsOutOfRangeFault :
    (let s := ({ start [] with i := 0xFFE#16 } : State); 0xFFF < s.i.toNat + 2) ∧
    (let s := ({ start [] with i := 0xFF1#16 } : State); 0xFFF < s.i.toNat + (15 : Reg).val) ∧
    (let s := ({ start [] with i := 0x1000#16 } : State); 0xFFF < s.i.toNat + (0 : Reg).val) := by decide

theorem witness_UnimplementedWordsDoNothing :
    Instr.waitKey 3 ∈ [Instr.keyPressedSkip 3, Instr.keyNotPressedSkip 3, Instr.waitKey 3, Instr.fontAddr 3] := by
  decide

/-- An unknown word of majors 5 and 9, and words of each row of R90's list. -/
theorem witness_unknown_words :
    (0x5341#16).toNat / 4096 = 5 ∧ (0x5341#16).toNat % 16 ≠ 0 ∧ (0x934F#16).toNat / 4096 = 9 ∧
      (0x934F#16).toNat % 16 ≠ 0 ∧ unknownWord 0x0000#16 = true ∧ unknownWord 0x5341#16 = true ∧
      unknownWord 0x801F#16 = true ∧ unknownWord 0x934F#16 = true ∧ unknownWord 0xE09E#16 = true ∧
      unknownWord 0xF00A#16 = true := by decide

theorem witness_LoadCopiesTheImage :
    (start []).mem.wf = true ∧ (List.replicate 3584 0x60#8).length ≤ 3584 :=
  ⟨rfl, Nat.le_of_eq List.length_replicate⟩

theorem witness_LoadTooLongChangesNothing : 3584 < (List.replicate 3585 0x60#8).length := by
  rw [List.length_replicate]; decide

theorem witness_PowerOnValues : 0x200 ≤ 0x200 ∧ 0x200 ≤ 0xFFF := by decide

theorem witness_KeyEventsWriteOneFlag : (3 : Fin 16) ≠ 4 := by decide

end Sys2Proof.Tests
end

section
/-! SUPPORT. Every instruction as one cycle with a fault condition and an effect of its own, what each effect
writes (the access matrix of 10_state.md R41), and the invariants every step and every host operation keeps. -/

namespace Sys2Proof.Machine

/-! The cycle of every instruction as one equation. -/

/-- The fault an instruction raises before its first write, if any (60_exceptions.md R214 to R216). -/
def raisedCause (i : Instr) (s : State) : Option FaultCause :=
  match i with
  | .ret => if s.sp = 0#8 then some .stackUnderflow else none
  | .call _ => if s.config.stackDepth ≤ s.sp.toNat then some .stackOverflow else none
  | .drw _ _ n => s.dataFault n.val
  | .bcd _ => s.dataFault 3
  | .store x => s.dataFault (regCount x)
  | .load x => s.dataFault (regCount x)
  | _ => none

/-- What an instruction does to the dispatched state `d`; `rnd` is the input of the cycle
(43_load_add_random.md R143). -/
def ownEffect (i : Instr) (rnd : Byte) (d : State) : State :=
  match i with
  | .cls => { d with fb := Framebuffer.clear }
  | .ret => d.pop
  | .jp nnn => { d with pc := addrOperand nnn }
  | .call nnn => { d.push with pc := addrOperand nnn }
  | .seImm x nn => d.skipIf (decide (d.reg x = nn))
  | .sneImm x nn => d.skipIf (decide (d.reg x ≠ nn))
  | .seReg x y => d.skipIf (decide (d.reg x = d.reg y))
  | .ldImm x nn => d.setReg x nn
  | .addImm x nn => d.setReg x (d.reg x + nn)
  | .ldReg x y => d.setReg x (d.reg y)
  | .orReg x y => d.setReg x (d.reg x ||| d.reg y)
  | .andReg x y => d.setReg x (d.reg x &&& d.reg y)
  | .xorReg x y => d.setReg x (d.reg x ^^^ d.reg y)
  | .addReg x y =>
    d.setFlagThenReg (aluFlag d.config.flagMode (carryCond (d.reg x) (d.reg y)) (d.reg regVF)) x (d.reg x + d.reg y)
  | .sub x y =>
    d.setFlagThenReg (aluFlag d.config.flagMode (greaterCond (d.reg x) (d.reg y)) (d.reg regVF)) x (d.reg x - d.reg y)
  | .shr x _ => d.setFlagThenReg (shrFlag (d.reg x)) x (d.reg x >>> 1)
  | .subn x y =>
    d.setFlagThenReg (aluFlag d.config.flagMode (greaterCond (d.reg y) (d.reg x)) (d.reg regVF)) x (d.reg y - d.reg x)
  | .shl x _ => d.setFlagThenReg (shlFlag d.config.shlFlag (d.reg x)) x (d.reg x <<< 1)
  | .sneReg x y => d.skipIf (decide (d.reg x ≠ d.reg y))
  | .ldI nnn => { d with i := addrOperand nnn }
  | .jpV0 nnn => { d with pc := addrOperand nnn + (d.reg 0).setWidth 16 }
  | .rnd x nn => d.setReg x (rnd &&& nn)
  | .drw x y n => d.blit x y n
  | .ldVxDt x => d.setReg x d.td
  | .ldDtVx x => { d with td := d.reg x }
  | .ldStVx x => { d with ts := d.reg x }
  | .addI x =>
    let sum := d.i.toNat + (d.reg x).toNat
    { d.setReg regVF (addIFlag d.config.fx1eVfElse sum (d.reg regVF)) with i := BitVec.ofNat 16 sum }
  | .bcd x => d.storeBytes (d.effAddr 0) (decimalDigits (d.reg x))
  | .store x => d.storeBytes (d.effAddr 0) (d.firstRegs (regCount x))
  | .load x => d.setRegsFrom 0 (d.mem.readList (d.effAddr 0) (regCount x))
  | .keyPressedSkip _ | .keyNotPressedSkip _ | .waitKey _ | .fontAddr _ | .unknown _ => d

theorem addrOperand_eq_iff (nnn : Addr12) (w : Word) : addrOperand nnn = w ↔ nnn.toNat = w.toNat := by
  rw [← BitVec.toNat_inj, addrOperand_toNat]

/-- `raisedCause`, `ownEffect` and the table of tokens say what `exec` does. -/
theorem exec_eq_completeUnless (i : Instr) (s : State) :
    exec i s = completeUnless i (raisedCause i s) (reportedToken i s.pc.toNat) (ownEffect i s.rnd) s := by
  cases i with
  | jp nnn => simp only [exec_jp, reportedToken, addrOperand_eq_iff]; rfl
  | _ => rfl

/-- Everything a cycle can answer: the instruction's fault, or its effect on the dispatched state and its token. -/
theorem exec_next {i : Instr} {s t : State} (h : exec i s = .next t) :
    (∃ c, raisedCause i s = some c ∧ t = s.raise c (some (encode i))) ∨
      (raisedCause i s = none ∧
        t = { ownEffect i s.rnd (s.dispatched (encode i)) with lastClass := reportedToken i s.pc.toNat }) :=
  completeUnless_next (exec_eq_completeUnless i s ▸ h)

/-- The common part of a cycle does not write what a fault condition reads (log 10). -/
@[simp] theorem raisedCause_dispatched (i : Instr) (s : State) (op : Word) :
    raisedCause i (s.dispatched op) = raisedCause i s := by
  cases i <;> rfl

/-! What each effect writes (10_state.md R41). -/

theorem State.reg_setFlagThenReg_other (s : State) (f b : Byte) {x r : Reg} (hx : r ≠ x) (hf : r ≠ regVF) :
    (s.setFlagThenReg f x b).reg r = s.reg r := by
  rw [State.reg_setFlagThenReg, if_neg hx, if_neg hf]

theorem State.reg_blit_other (d : State) (x y : Reg) (n : Fin 16) {r : Reg} (h : r ≠ 15) :
    (d.blit x y n).reg r = d.reg r :=
  State.reg_setReg_other d _ h

theorem ownEffect_reg (i : Instr) (rnd : Byte) (d : State) (r : Reg) :
    (ownEffect i rnd d).reg r = d.reg r ∨ writesReg i r := by
  by_cases hw : writesReg i r
  · exact .inr hw
  refine .inl ?_
  cases i with
  | load x =>
    have hr : ¬ (0 ≤ r.val ∧ r.val - 0 < (d.mem.readList (d.effAddr 0) (regCount x)).length) := by
      simp only [writesReg, Fin.le_def] at hw
      simp only [Memory.length_readList, regCount]
      omega
    simp only [ownEffect, State.reg_setRegsFrom, dif_neg hr]
  | drw x y n => exact d.reg_blit_other x y n hw
  | addI x => exact State.reg_setReg_other d _ hw
  | addReg | sub | shr | subn | shl =>
    obtain ⟨hx, hf⟩ := not_or.1 hw
    exact d.reg_setFlagThenReg_other _ _ hx hf
  | ldImm | addImm | ldReg | orReg | andReg | xorReg | rnd | ldVxDt => exact State.reg_setReg_other d _ hw
  | _ => simp [ownEffect, State.reg_eq]

theorem ownEffect_i (i : Instr) (rnd : Byte) (d : State) :
    (ownEffect i rnd d).i = d.i ∨ (∃ nnn, i = .ldI nnn) ∨ ∃ x, i = .addI x := by
  cases i with
  | ldI nnn => exact .inr (.inl ⟨nnn, rfl⟩)
  | addI x => exact .inr (.inr ⟨x, rfl⟩)
  | _ => exact .inl (by simp [ownEffect])

theorem ownEffect_stack (i : Instr) (rnd : Byte) (d : State) :
    StackKept d (ownEffect i rnd d) ∨ i = .ret ∨ ∃ nnn, i = .call nnn := by
  cases i with
  | ret => exact .inr (.inl rfl)
  | call nnn => exact .inr (.inr ⟨nnn, rfl⟩)
  | _ => exact .inl ⟨by simp [ownEffect], by simp [ownEffect]⟩

theorem ownEffect_mem (i : Instr) (rnd : Byte) (d : State) :
    (ownEffect i rnd d).mem = d.mem ∨ (∃ x, i = .bcd x) ∨ ∃ x, i = .store x := by
  cases i with
  | bcd x => exact .inr (.inl ⟨x, rfl⟩)
  | store x => exact .inr (.inr ⟨x, rfl⟩)
  | _ => exact .inl (by simp [ownEffect])

theorem ownEffect_fb (i : Instr) (rnd : Byte) (d : State) :
    (ownEffect i rnd d).fb = d.fb ∨ i = .cls ∨ ∃ x y n, i = .drw x y n := by
  cases i with
  | cls => exact .inr (.inl rfl)
  | drw x y n => exact .inr (.inr ⟨x, y, n, rfl⟩)
  | _ => exact .inl (by simp [ownEffect])

theorem ownEffect_pc (i : Instr) (rnd : Byte) (d : State) :
    (ownEffect i rnd d).pc = d.pc ∨ writesPc i := by
  cases i with
  | ret | jp | call | seImm | sneImm | seReg | sneReg | jpV0 => exact .inr trivial
  | _ => exact .inl (by simp [ownEffect])

@[simp] theorem ownEffect_keys (i : Instr) (rnd : Byte) (d : State) : (ownEffect i rnd d).keys = d.keys := by
  cases i <;> simp [ownEffect]

@[simp] theorem ownEffect_config (i : Instr) (rnd : Byte) (d : State) : (ownEffect i rnd d).config = d.config := by
  cases i <;> simp [ownEffect]

/-- Settles O17: a fault writes its record alone; a completed cycle is the common part, which writes none of these
fields, and the instruction's effect. -/
theorem onlyListedInstructionsWrite : Obligations.OnlyListedInstructionsWrite := by
  intro s t op hfetch hstep
  rw [step_of_fetch (step_next hstep).1 hfetch] at hstep
  generalize decode op = i at hstep ⊢
  obtain ⟨c, -, rfl⟩ | ⟨-, rfl⟩ := exec_next hstep
  · simp [State.reg_eq, State.cell_eq]
  · have hstack := ownEffect_stack i s.rnd (s.dispatched (encode i))
    have hmem := ownEffect_mem i s.rnd (s.dispatched (encode i))
    have hfb := ownEffect_fb i s.rnd (s.dispatched (encode i))
    exact ⟨fun r => (ownEffect_reg i s.rnd _ r).resolve_left, (ownEffect_i i s.rnd _).resolve_left,
      fun hne => hstack.resolve_left fun kept => hne.elim (· kept.sp) (· kept.stack),
      fun ⟨a, ha⟩ => hmem.resolve_left fun kept => ha (congrArg (Memory.read · a) kept),
      fun ⟨row, col, hc⟩ => hfb.resolve_left fun kept => hc (congrArg (Framebuffer.cell · row col) kept),
      ownEffect_keys i s.rnd _, ownEffect_config i s.rnd _⟩

/-! Stack slots under the operations of the call stack. -/

theorem StackKept.slot {s t : State} (h : StackKept s t) (k : Nat) : t.slot k = s.slot k := by
  rw [State.slot_eq, State.slot_eq, h.stack]

theorem State.slot_of_stack_eq_replicate {s : State} {n : Nat} (h : s.stack = List.replicate n 0#16) (k : Nat) :
    s.slot k = 0#16 := by
  rw [State.slot_eq, h, List.getD_eq_getElem?_getD, List.getElem?_getD_replicate_default_eq]

/-- A slot after a write is the word written or what it was, past the depth too (log 5). -/
theorem State.slot_setSlot_eq_or (s : State) (k j : Nat) (w : Word) :
    (s.setSlot k w).slot j = w ∨ (s.setSlot k w).slot j = s.slot j := by
  by_cases hk : k < s.stack.length
  · rw [State.slot_setSlot s k j w hk]
    split
    · exact .inl rfl
    · exact .inr rfl
  · rw [State.slot_eq, State.setSlot_stack, List.set_eq_of_length_le (by omega)]
    exact .inr rfl

/-! The machine's invariant (10_state.md R26, R29). -/

theorem State.Inv.of_stackKept {s t : State} (h : s.Inv) (hconfig : t.config = s.config) (hstack : StackKept s t)
    (hmem : t.mem.wf = true) : t.Inv where
  configWf := hconfig ▸ h.configWf
  stackLen := by rw [hstack.stack, hconfig, h.stackLen]
  spLe := by rw [hstack.sp, hconfig]; exact h.spLe
  freeZero k hk := by rw [hstack.slot]; exact h.freeZero k (hstack.sp ▸ hk)
  memWf := hmem

theorem State.inv_of_empty_stack {s : State} (hconfig : s.config.wf = true) (hsp : s.sp = 0#8)
    (hstack : s.stack = List.replicate s.config.stackDepth 0#16) (hmem : s.mem.wf = true) : s.Inv where
  configWf := hconfig
  stackLen := by rw [hstack, List.length_replicate]
  spLe := by rw [hsp]; exact Nat.zero_le _
  freeZero k _ := State.slot_of_stack_eq_replicate hstack k
  memWf := hmem

theorem State.Inv.stackDepth_le {s : State} (h : s.Inv) : s.config.stackDepth ≤ 255 := by
  have hwf := h.configWf
  simp only [Config.wf, Bool.and_eq_true, decide_eq_true_eq] at hwf
  exact hwf.2

/-- With a slot free `SP` does not wrap, because the depth is at most 255 (00_scope.md R6). -/
theorem State.Inv.push_sp_toNat {s : State} (h : s.Inv) (hfree : s.sp.toNat < s.config.stackDepth) :
    s.push.sp.toNat = s.sp.toNat + 1 := by
  have := h.stackDepth_le
  rw [State.push_sp]
  bv_omega

theorem State.pop_sp_toNat {s : State} (hsp : s.sp ≠ 0#8) : s.pop.sp.toNat + 1 = s.sp.toNat := by
  rw [State.pop_sp]
  bv_omega

theorem State.Inv.push {s : State} (h : s.Inv) (hfree : s.sp.toNat < s.config.stackDepth) : s.push.Inv where
  configWf := h.configWf
  stackLen := by rw [State.push_stack, List.length_set]; exact h.stackLen
  spLe := by rw [h.push_sp_toNat hfree]; exact hfree
  freeZero k hk := by
    rw [h.push_sp_toNat hfree] at hk
    show (s.setSlot s.sp.toNat s.pc).slot k = 0#16
    rw [State.slot_setSlot _ _ _ _ (h.stackLen ▸ hfree), if_neg (by omega)]
    exact h.freeZero k (by omega)
  memWf := h.memWf

/-- A pop clears the slot it leaves free (10_state.md R29, D18). -/
theorem State.Inv.pop {s : State} (h : s.Inv) (hsp : s.sp ≠ 0#8) : s.pop.Inv where
  configWf := h.configWf
  stackLen := by rw [State.pop_stack, List.length_set]; exact h.stackLen
  spLe := by have := State.pop_sp_toNat hsp; have := h.spLe; rw [State.pop_config]; omega
  freeZero k hk := by
    have hdec := State.pop_sp_toNat hsp
    have hlen : s.pop.sp.toNat < s.stack.length := by rw [h.stackLen]; have := h.spLe; omega
    show (s.setSlot s.pop.sp.toNat 0#16).slot k = 0#16
    rw [State.slot_setSlot _ _ _ _ hlen]
    split
    · rfl
    · exact h.freeZero k (by omega)
  memWf := h.memWf

theorem State.Inv.storeBytes {s : State} (h : s.Inv) {bytes : List Byte} (hfit : s.dataFault bytes.length = none) :
    (s.storeBytes (s.effAddr 0) bytes).Inv := by
  refine h.of_stackKept rfl ⟨rfl, rfl⟩ ?_
  obtain hlen | hle := (rangeFault_none_iff _ _).1 hfit
  · rw [List.length_eq_zero_iff.1 hlen]; exact h.memWf
  · exact State.wf_storeBytes h.memWf hle

/-- The effect of an instruction that raises no fault: 00EE pops, 2nnn pushes, Fx33 and Fx55 store, and the others
keep the stack and memory. -/
theorem State.Inv.ownEffect {i : Instr} {d : State} (h : d.Inv) (hcause : raisedCause i d = none) (rnd : Byte) :
    (ownEffect i rnd d).Inv := by
  obtain hstack | rfl | ⟨nnn, rfl⟩ := ownEffect_stack i rnd d
  · obtain hmem | ⟨x, rfl⟩ | ⟨x, rfl⟩ := ownEffect_mem i rnd d
    · exact h.of_stackKept (ownEffect_config i rnd d) hstack (hmem ▸ h.memWf)
    · exact h.storeBytes hcause
    · exact h.storeBytes (by rw [State.length_firstRegs]; exact hcause)
  · refine h.pop fun hsp => ?_
    simp [raisedCause, hsp] at hcause
  · have hfree : d.sp.toNat < d.config.stackDepth := by simpa [raisedCause] using hcause
    exact (h.push hfree).of_stackKept rfl ⟨rfl, rfl⟩ h.memWf

theorem State.Inv.exec {i : Instr} {s t : State} (h : s.Inv) (hexec : exec i s = .next t) : t.Inv := by
  obtain ⟨c, -, rfl⟩ | ⟨hcause, rfl⟩ := exec_next hexec
  · exact h.of_stackKept rfl ⟨rfl, rfl⟩ h.memWf
  · have hd : (s.dispatched (encode i)).Inv := h.of_stackKept rfl ⟨rfl, rfl⟩ h.memWf
    have he := hd.ownEffect ((raisedCause_dispatched i s _).trans hcause) s.rnd
    exact he.of_stackKept rfl ⟨rfl, rfl⟩ he.memWf

/-- Settles O21: a fault writes its record alone; a completed cycle keeps the invariant by its effect. -/
theorem stepKeepsTheInvariant : Obligations.StepKeepsTheInvariant := by
  intro s t h hstep
  obtain ⟨-, ⟨c, -, rfl⟩ | ⟨op, -, hexec⟩⟩ := step_next hstep
  · exact h.of_stackKept rfl ⟨rfl, rfl⟩ h.memWf
  · exact h.exec hexec

/-! How far `PC` can go (10_state.md R25). -/

theorem State.PcBounded.of_eq {s t : State} (h : s.PcBounded) (hpc : t.pc = s.pc) (hstack : t.stack = s.stack) :
    t.PcBounded where
  pcLe := hpc ▸ h.pcLe
  slotLe k := by rw [State.slot_eq, hstack]; exact h.slotLe k

theorem State.pcBounded_of_empty_stack {s : State} {n : Nat} (hpc : s.pc.toNat ≤ 0x10FE)
    (hstack : s.stack = List.replicate n 0#16) : s.PcBounded where
  pcLe := hpc
  slotLe k := by rw [State.slot_of_stack_eq_replicate hstack]; exact Nat.zero_le _

theorem State.slot_setSlot_toNat_le {s : State} {w : Word} {b : Nat} (hslot : ∀ j, (s.slot j).toNat ≤ b)
    (hw : w.toNat ≤ b) (k j : Nat) : ((s.setSlot k w).slot j).toNat ≤ b := by
  obtain h | h := s.slot_setSlot_eq_or k j w
  · rw [h]; exact hw
  · rw [h]; exact hslot j

/-- A dispatched state holds the address of the next word, which is the return address 2nnn pushes. -/
theorem ownEffect_slot_toNat_le {d : State} (hpc : d.pc.toNat ≤ 0x1000) (hslot : ∀ j, (d.slot j).toNat ≤ 0x1000)
    (i : Instr) (rnd : Byte) (k : Nat) : ((ownEffect i rnd d).slot k).toNat ≤ 0x1000 := by
  obtain hstack | rfl | ⟨nnn, rfl⟩ := ownEffect_stack i rnd d
  · rw [hstack.slot]; exact hslot k
  · exact State.slot_setSlot_toNat_le hslot (Nat.zero_le _) _ k
  · exact State.slot_setSlot_toNat_le hslot hpc _ k

theorem State.skipIf_pc_toNat_le {d : State} (hpc : d.pc.toNat ≤ 0x1000) (c : Bool) :
    (d.skipIf c).pc.toNat ≤ 0x10FE := by
  cases c with
  | false => exact Nat.le_trans hpc (by decide)
  | true => rw [State.skipIf_pc, if_pos rfl]; bv_omega

theorem addrOperand_toNat_le (nnn : Addr12) : (addrOperand nnn).toNat ≤ 0xFFF := by
  rw [addrOperand_toNat]; exact Nat.le_of_lt_succ nnn.isLt

/-- The largest target is that of Bnnn with `nnn = 0xFFF` and `V[0] = 0xFF`. -/
theorem addrOperand_add_setWidth_toNat_le (nnn : Addr12) (b : Byte) :
    (addrOperand nnn + b.setWidth 16).toNat ≤ 0x10FE := by
  have hn := addrOperand_toNat_le nnn
  have hb := b.isLt
  rw [BitVec.toNat_add, BitVec.toNat_setWidth]
  omega

theorem ownEffect_pc_toNat_le {d : State} (hpc : d.pc.toNat ≤ 0x1000) (hslot : ∀ j, (d.slot j).toNat ≤ 0x1000)
    (i : Instr) (rnd : Byte) : (ownEffect i rnd d).pc.toNat ≤ 0x10FE := by
  obtain hkept | hwrites := ownEffect_pc i rnd d
  · rw [hkept]; omega
  · cases i with
    | ret => exact Nat.le_trans (hslot _) (by decide)
    | jp nnn | call nnn => exact Nat.le_trans (addrOperand_toNat_le nnn) (by decide)
    | seImm | sneImm | seReg | sneReg => exact State.skipIf_pc_toNat_le hpc _
    | jpV0 nnn => exact addrOperand_add_setWidth_toNat_le nnn _
    | _ => exact hwrites.elim

theorem State.PcBounded.exec {i : Instr} {s t : State} (h : s.PcBounded) (hfetch : s.pc.toNat ≤ 0xFFE)
    (hexec : exec i s = .next t) : t.PcBounded := by
  obtain ⟨c, -, rfl⟩ | ⟨-, rfl⟩ := exec_next hexec
  · exact h.of_eq rfl rfl
  · have hpc : (s.dispatched (encode i)).pc.toNat ≤ 0x1000 := by rw [State.dispatched_pc]; bv_omega
    exact ⟨ownEffect_pc_toNat_le hpc h.slotLe i s.rnd, ownEffect_slot_toNat_le hpc h.slotLe i s.rnd⟩

/-- Settles O22: a cycle that fetches its word has `PC` at most 0xFFE, so the next word's address is at most 0x1000. -/
theorem stepKeepsPcBounded : Obligations.StepKeepsPcBounded := by
  intro s t h hstep
  obtain ⟨-, ⟨c, -, rfl⟩ | ⟨op, hfetch, hexec⟩⟩ := step_next hstep
  · exact h.of_eq rfl rfl
  · have hpc : s.pc.toNat + 1 < 4096 := ((s.fetch_ok_iff op).1 hfetch).1
    exact h.exec (by omega) hexec

/-! The host's operations (70_reset_and_hazards.md R240 to R252). -/

theorem Memory.wf_of_lowMemInit (low : LowMemInit) : (Memory.writeList [] 0 low.toList).wf = true :=
  Memory.wf_writeList low.toList rfl (by simp [memSize])

/-- Settles O20: every slot, `SP` and `PC` are 0, and writing `LOW_MEM_INIT` keeps the canonical form. -/
theorem powerOnMeetsTheInvariants : Obligations.PowerOnMeetsTheInvariants := by
  refine ⟨fun c low hc => ⟨?_, ?_⟩, ?_, ?_⟩
  · exact State.inv_of_empty_stack hc rfl rfl (Memory.wf_of_lowMemInit low)
  · exact State.pcBounded_of_empty_stack (Nat.zero_le _) rfl
  · exact State.inv_of_empty_stack rfl rfl rfl rfl
  · exact State.pcBounded_of_empty_stack (Nat.zero_le _) rfl

/-- The host's `Step` is a step with the input supplied, or changes nothing. -/
theorem State.hostStep_eq_or (s : State) (rnd : Byte) :
    step { s with rnd := rnd } = .next (s.hostStep rnd) ∨ s.hostStep rnd = s := by
  unfold State.hostStep
  cases step { s with rnd := rnd } with
  | next t => exact .inl rfl
  | fault _ => exact .inr rfl
  | refused _ => exact .inr rfl

@[simp] theorem State.load_config (s : State) (image : List Byte) : (s.load image).1.config = s.config := by
  unfold State.load; split <;> rfl

theorem State.load_stackKept (s : State) (image : List Byte) : StackKept s (s.load image).1 := by
  unfold State.load; split <;> exact ⟨rfl, rfl⟩

theorem State.load_pc (s : State) (image : List Byte) :
    (s.load image).1.pc = s.pc ∨ (s.load image).1.pc = BitVec.ofNat 16 progBase := by
  unfold State.load
  split
  · exact .inl rfl
  · exact .inr rfl

theorem State.Inv.perform {s : State} (h : s.Inv) (op : HostOp) : (s.perform op).1.Inv := by
  cases op with
  | reset => exact State.inv_of_empty_stack h.configWf rfl rfl h.memWf
  | load image => exact h.of_stackKept (s.load_config image) (s.load_stackKept image) (State.wf_load h.memWf image)
  | step rnd =>
    show (s.hostStep rnd).Inv
    obtain hstep | hkept := s.hostStep_eq_or rnd
    · exact stepKeepsTheInvariant { s with rnd := rnd } _ (h.of_stackKept rfl ⟨rfl, rfl⟩ h.memWf) hstep
    · rwa [hkept]
  | keyPress k | keyRelease k => exact h.of_stackKept rfl ⟨rfl, rfl⟩ h.memWf

theorem State.PcBounded.perform {s : State} (h : s.PcBounded) (op : HostOp) : (s.perform op).1.PcBounded := by
  cases op with
  | reset => exact State.pcBounded_of_empty_stack (Nat.zero_le _) rfl
  | load image =>
    refine ⟨?_, fun k => (s.load_stackKept image).slot k ▸ h.slotLe k⟩
    show (s.load image).1.pc.toNat ≤ 0x10FE
    obtain hpc | hpc := s.load_pc image
    · rw [hpc]; exact h.pcLe
    · rw [hpc]; decide
  | step rnd =>
    show (s.hostStep rnd).PcBounded
    obtain hstep | hkept := s.hostStep_eq_or rnd
    · exact stepKeepsPcBounded { s with rnd := rnd } _ (h.of_eq rfl rfl) hstep
    · rwa [hkept]
  | keyPress k | keyRelease k => exact h.of_eq rfl rfl

/-- Settles O23, operation by operation; the host's `Step` is O21 and O22. -/
theorem hostOperationsKeepTheInvariants : Obligations.HostOperationsKeepTheInvariants :=
  fun _ op hinv hpc => ⟨hinv.perform op, hpc.perform op⟩

end Sys2Proof.Machine
end

section
/-! SUPPORT. Memory that is both written as data and fetched as instructions (20_memory.md R73). -/

namespace Sys2Proof.Machine

/-- A cycle whose fault condition does not hold completes. -/
theorem exec_of_raisedCause_none {i : Instr} {s : State} (h : raisedCause i s = none) :
    exec i s =
      .next { ownEffect i s.rnd (s.dispatched (encode i)) with lastClass := reportedToken i s.pc.toNat } := by
  rw [exec_eq_completeUnless, h]; rfl

theorem State.dataFault_none_of_le {s : State} {count : Nat} (h : s.i.toNat + count ≤ memSize) :
    s.dataFault count = none :=
  (rangeFault_none_iff _ _).2 (.inr h)

/-- Fx55's bytes lie in memory as the registers hold them (47_misc.md R196). -/
theorem State.read_storeBytes_firstRegs {d : State} (hwf : d.mem.wf = true) {x r : Reg}
    (hfit : d.i.toNat + regCount x ≤ memSize) (hr : r ≤ x) :
    (d.storeBytes (d.effAddr 0) (d.firstRegs (regCount x))).mem.read (d.effAddr r.val) = d.reg r := by
  have hlen := d.length_firstRegs x
  have hlt : r.val < (d.firstRegs (regCount x)).length := by
    rw [hlen]; exact Nat.lt_succ_of_le hr
  exact (Memory.read_writeList_inside _ hwf (hlen.symm ▸ hfit) hlt).trans (d.getElem_firstRegs x r.val hlt)

/-- Settles O19: the effect leaves `PC` at the first stored byte, so the fetch reads `V[0]` and `V[1]` back. -/
theorem storedBytesAreFetchedNext : Obligations.StoredBytesAreFetchedNext := by
  intro x s hfault hwf hx hle hpc
  have hfit : s.i.toNat + regCount x ≤ memSize := by simp only [regCount, memSize]; omega
  have hexec := exec_of_raisedCause_none (i := .store x) (s := s) (State.dataFault_none_of_le hfit)
  refine ⟨_, hexec, step_of_fetch hfault ((State.fetch_ok_iff _ _).2 ?_)⟩
  have hnext : (s.pc + 2#16).toNat = s.i.toNat := by bv_omega
  have hread (r : Reg) (hr : r ≤ x) :=
    State.read_storeBytes_firstRegs (d := s.dispatched (encode (.store x))) hwf hfit hr
  simp only [ownEffect, State.storeBytes_pc, State.dispatched_pc, hnext]
  exact ⟨by simp only [memSize]; omega,
    congrArg₂ wordOfBytes (hread 0 (Fin.zero_le x)).symm (hread 1 hx).symm⟩

end Sys2Proof.Machine
end

section
/-! SUPPORT. The decoder and the encoder as inverses (30_encoding.md R81, R83): which words decode to `unknown`, the
word of what a word decodes to, the row of the opcode table it selects, and the token it reports. -/

namespace Sys2Proof

open Sys2Proof.Machine

/-! Words put together from their major nibble and a sub-opcode. -/

theorem encodeXnn_of_fields {op : Word} {m : Fin 16} {nn : Byte} (hm : fieldMajor op = m.val)
    (hn : (fieldNn op).toNat = nn.toNat) : encodeXnn m (fieldX op) nn = op := by
  rw [← BitVec.eq_of_toNat_eq hn, encodeXnn_fields hm]

theorem encodeXyn_of_fields {op : Word} {m n : Fin 16} (hm : fieldMajor op = m.val)
    (hn : (fieldN op).val = n.val) : encodeXyn m (fieldX op) (fieldY op) n = op := by
  rw [← Fin.ext hn, encodeXyn_fields hm]

/-! The encoder undoes the decoder. -/

theorem encode_decodeAlu {op : Word} (hm : fieldMajor op = 0x8) : encode (decodeAlu op) = op := by
  unfold decodeAlu
  split
  case h_10 => rfl
  all_goals exact encodeXyn_of_fields hm ‹_›

theorem encode_decodeKey {op : Word} (hm : fieldMajor op = 0xE) : encode (decodeKey op) = op := by
  unfold decodeKey
  split
  case h_3 => rfl
  all_goals exact encodeXnn_of_fields hm ‹_›

theorem encode_decodeMisc {op : Word} (hm : fieldMajor op = 0xF) : encode (decodeMisc op) = op := by
  unfold decodeMisc
  split
  case h_10 => rfl
  all_goals exact encodeXnn_of_fields hm ‹_›

theorem fieldMajor_lt (op : Word) : fieldMajor op < 16 := (op.extractLsb' 12 4).isLt

/-- Case `h_k` is the `k`-th arm of `decode`, the one of major nibble `k - 1`. -/
theorem encode_decode (op : Word) : encode (decode op) = op := by
  unfold decode
  split
  case h_1 =>
    split_ifs with hcls hret
    · exact hcls.symm
    · exact hret.symm
    · rfl
  case h_6 hm | h_10 hm =>
    split_ifs with hn
    · exact encodeXyn_of_fields hm hn
    · rfl
  case h_9 hm => exact encode_decodeAlu hm
  case h_14 hm => exact encodeXyn_fields hm
  case h_15 hm => exact encode_decodeKey hm
  case h_16 hm => exact encode_decodeMisc hm
  case h_17 => rfl
  case h_2 hm | h_3 hm | h_11 hm | h_12 hm => exact encodeNnn_fields hm
  case h_4 hm | h_5 hm | h_7 hm | h_8 hm | h_13 hm => exact encodeXnn_fields hm

theorem eq_of_decode_eq_unknown {op w : Word} (h : decode op = .unknown w) : w = op := by
  have hword := encode_decode op
  rwa [h] at hword

/-! Which words decode to `unknown` (30_encoding.md R83, R90). -/

theorem decodeAlu_eq_unknown_iff (op : Word) :
    decodeAlu op = .unknown op ↔ (fieldN op).val ∉ [0x0, 0x1, 0x2, 0x3, 0x4, 0x5, 0x6, 0x7, 0xE] := by
  unfold decodeAlu
  split <;> simp_all

theorem decodeKey_eq_unknown_iff (op : Word) :
    decodeKey op = .unknown op ↔ (fieldNn op).toNat ∉ [0x9E, 0xA1] := by
  unfold decodeKey
  split <;> simp_all

theorem decodeMisc_eq_unknown_iff (op : Word) :
    decodeMisc op = .unknown op ↔
      (fieldNn op).toNat ∉ [0x07, 0x0A, 0x15, 0x18, 0x1E, 0x29, 0x33, 0x55, 0x65] := by
  unfold decodeMisc
  split <;> simp_all

/-- The low nibbles of major 0x8 that R88 gives no operation. -/
theorem unusedAluNibble_iff : ∀ n : Fin 16,
    n.val ∉ [0x0, 0x1, 0x2, 0x3, 0x4, 0x5, 0x6, 0x7, 0xE] ↔ n.val ∈ [0x8, 0x9, 0xA, 0xB, 0xC, 0xD, 0xF] := by
  decide

/-- R90's list in the decoder's fields. -/
theorem unknownWord_iff (op : Word) :
    unknownWord op = true ↔
      (fieldMajor op = 0x0 ∧ op ≠ 0x00E0#16 ∧ op ≠ 0x00EE#16) ∨
      (fieldMajor op = 0x5 ∧ (fieldN op).val ≠ 0) ∨
      (fieldMajor op = 0x8 ∧ (fieldN op).val ∈ [0x8, 0x9, 0xA, 0xB, 0xC, 0xD, 0xF]) ∨
      (fieldMajor op = 0x9 ∧ (fieldN op).val ≠ 0) ∨
      fieldMajor op = 0xE ∨
      (fieldMajor op = 0xF ∧ (fieldNn op).toNat ∉ [0x07, 0x15, 0x18, 0x1E, 0x33, 0x55, 0x65]) := by
  simp [unknownWord, fieldMajor_eq, fieldN_val, fieldNn_toNat, ← BitVec.toNat_inj, or_assoc, and_assoc]

theorem recognisedWord_iff (op : Word) :
    recognisedWord op = true ↔
      (fieldMajor op = 0xE ∧ (fieldNn op).toNat ∈ [0x9E, 0xA1]) ∨
      (fieldMajor op = 0xF ∧ (fieldNn op).toNat ∈ [0x0A, 0x29]) := by
  simp [recognisedWord, fieldMajor_eq, fieldNn_toNat]

/-- A word decodes to `unknown` exactly when R90's list has it and no row of its own does (cases as in
`encode_decode`). -/
theorem decode_eq_unknown_iff (op : Word) :
    decode op = .unknown op ↔ (Instr.unknown op).wellFormed = true := by
  simp only [Instr.wellFormed, Bool.and_eq_true, Bool.not_eq_true', ← Bool.not_eq_true, unknownWord_iff,
    recognisedWord_iff]
  unfold decode
  split
  case h_1 | h_6 | h_10 => split_ifs <;> simp_all
  case h_9 hm => rw [decodeAlu_eq_unknown_iff, unusedAluNibble_iff]; simp [hm]
  case h_15 hm => simp [hm, decodeKey_eq_unknown_iff]
  case h_16 hm => rw [decodeMisc_eq_unknown_iff]; grind
  case h_17 => have := fieldMajor_lt op; simp only [imp_false] at *; omega
  all_goals simp [*]

/-- Settles O4: the encoder undoes every arm of the decoder, and an `unknown` it answers is well formed. -/
theorem encodeOfDecode : Obligations.EncodeOfDecode := by
  intro op
  refine ⟨encode_decode op, ?_⟩
  cases hi : decode op with
  | unknown w =>
    obtain rfl := eq_of_decode_eq_unknown hi
    exact (decode_eq_unknown_iff w).1 hi
  | _ => rfl

/-- Settles O3, format by format; `unknown` alone needs to be well formed. -/
theorem decodeOfEncode : Obligations.DecodeOfEncode := by
  intro i hwf
  cases i with
  | unknown op => exact (decode_eq_unknown_iff op).2 hwf
  | cls | ret => rfl
  | jp | call | ldI | jpV0 => simp [decode, encode, fieldMajor_encodeNnn, fieldNnn_encodeNnn]
  | seImm | sneImm | ldImm | addImm | rnd =>
    simp [decode, encode, fieldMajor_encodeXnn, fieldX_encodeXnn, fieldNn_encodeXnn]
  | seReg | sneReg | drw =>
    simp [decode, encode, fieldMajor_encodeXyn, fieldX_encodeXyn, fieldY_encodeXyn, fieldN_encodeXyn]
  | ldReg | orReg | andReg | xorReg | addReg | sub | shr | subn | shl =>
    simp [decode, decodeAlu, encode, fieldMajor_encodeXyn, fieldX_encodeXyn, fieldY_encodeXyn, fieldN_encodeXyn]
  | keyPressedSkip | keyNotPressedSkip =>
    simp [decode, decodeKey, encode, fieldMajor_encodeXnn, fieldX_encodeXnn, fieldNn_encodeXnn]
  | _ => simp [decode, decodeMisc, encode, fieldMajor_encodeXnn, fieldX_encodeXnn, fieldNn_encodeXnn]

/-! The row of the opcode table a word selects: a word that meets a row's mask and match has the same row as the
match itself, because the mask keeps the fields that the decoder looks at. -/

/-- The fields a mask keeps whole are those of the match. -/
theorem extractLsb'_eq_of_and_eq {op mask p : Word} {k n : Nat} (h : op &&& mask = p)
    (hmask : mask.extractLsb' k n = BitVec.allOnes n) : op.extractLsb' k n = p.extractLsb' k n := by
  rw [← h, BitVec.extractLsb'_and, hmask, BitVec.and_allOnes]

theorem fieldMajor_eq_of_and_eq {op mask p : Word} (h : op &&& mask = p)
    (hmask : mask.extractLsb' 12 4 = BitVec.allOnes 4) : fieldMajor op = fieldMajor p :=
  congrArg BitVec.toNat (extractLsb'_eq_of_and_eq h hmask)

theorem decode_row_congr_major {op p : Word} (hmajor : fieldMajor op = fieldMajor p)
    (hp : fieldMajor p ∉ [0x0, 0x5, 0x8, 0x9, 0xE, 0xF]) : (decode op).row = (decode p).row := by
  unfold decode
  rw [hmajor]
  split <;> simp_all [Instr.row]

theorem decode_row_congr_nibble {op p : Word} (hmajor : fieldMajor op = fieldMajor p) (hn : fieldN op = fieldN p)
    (hp : fieldMajor p ∈ [0x5, 0x8, 0x9]) : (decode op).row = (decode p).row := by
  unfold decode decodeAlu
  rw [hmajor, hn]
  split
  case h_9 => split <;> rfl
  case h_6 | h_10 => split_ifs <;> rfl
  all_goals simp_all

theorem decode_row_congr_byte {op p : Word} (hmajor : fieldMajor op = fieldMajor p) (hnn : fieldNn op = fieldNn p)
    (hp : fieldMajor p ∈ [0xE, 0xF]) : (decode op).row = (decode p).row := by
  unfold decode decodeKey decodeMisc
  rw [hmajor, hnn]
  split
  case h_15 | h_16 => split <;> rfl
  all_goals simp_all

/-- Each row's mask keeps the whole word, the major nibble, the two outer nibbles, or the major nibble and the low
byte, as R84 to R89 give them. -/
theorem opcodeRows_masks : ∀ row ∈ opcodeRows,
    row.mask = 0xFFFF#16 ∨
    row.mask = 0xF000#16 ∧ fieldMajor row.pattern ∉ [0x0, 0x5, 0x8, 0x9, 0xE, 0xF] ∨
    row.mask = 0xF00F#16 ∧ fieldMajor row.pattern ∈ [0x5, 0x8, 0x9] ∨
    row.mask = 0xF0FF#16 ∧ fieldMajor row.pattern ∈ [0xE, 0xF] := by
  decide

theorem decode_pattern_row : ∀ row ∈ opcodeRows, (decode row.pattern).row = row := by
  decide

theorem decode_row_of_match {op : Word} {row : Row} (hrow : row ∈ opcodeRows) (h : op &&& row.mask = row.pattern) :
    (decode op).row = row := by
  refine Eq.trans ?_ (decode_pattern_row row hrow)
  obtain hmask | ⟨hmask, hp⟩ | ⟨hmask, hp⟩ | ⟨hmask, hp⟩ := opcodeRows_masks row hrow <;> rw [hmask] at h
  · have hop : op = row.pattern := BitVec.and_allOnes.symm.trans h
    rw [hop]
  · exact decode_row_congr_major (fieldMajor_eq_of_and_eq h rfl) hp
  · exact decode_row_congr_nibble (fieldMajor_eq_of_and_eq h rfl)
      (congrArg BitVec.toFin (extractLsb'_eq_of_and_eq h rfl)) hp
  · exact decode_row_congr_byte (fieldMajor_eq_of_and_eq h rfl) (extractLsb'_eq_of_and_eq h rfl) hp

/-- The laws of `Laws.RowShape` together. -/
theorem encode_and_row_mask (i : Instr) : encode i &&& i.row.mask = i.row.pattern :=
  match i with
  | .cls => Laws.RowShape.cls
  | .ret => Laws.RowShape.ret
  | .jp nnn => Laws.RowShape.jp nnn
  | .call nnn => Laws.RowShape.call nnn
  | .seImm x nn => Laws.RowShape.seImm x nn
  | .sneImm x nn => Laws.RowShape.sneImm x nn
  | .seReg x y => Laws.RowShape.seReg x y
  | .ldImm x nn => Laws.RowShape.ldImm x nn
  | .addImm x nn => Laws.RowShape.addImm x nn
  | .ldReg x y => Laws.RowShape.ldReg x y
  | .orReg x y => Laws.RowShape.orReg x y
  | .andReg x y => Laws.RowShape.andReg x y
  | .xorReg x y => Laws.RowShape.xorReg x y
  | .addReg x y => Laws.RowShape.addReg x y
  | .sub x y => Laws.RowShape.sub x y
  | .shr x y => Laws.RowShape.shr x y
  | .subn x y => Laws.RowShape.subn x y
  | .shl x y => Laws.RowShape.shl x y
  | .sneReg x y => Laws.RowShape.sneReg x y
  | .ldI nnn => Laws.RowShape.ldI nnn
  | .jpV0 nnn => Laws.RowShape.jpV0 nnn
  | .rnd x nn => Laws.RowShape.rnd x nn
  | .drw x y n => Laws.RowShape.drw x y n
  | .keyPressedSkip x => Laws.RowShape.keyPressedSkip x
  | .keyNotPressedSkip x => Laws.RowShape.keyNotPressedSkip x
  | .ldVxDt x => Laws.RowShape.ldVxDt x
  | .waitKey x => Laws.RowShape.waitKey x
  | .ldDtVx x => Laws.RowShape.ldDtVx x
  | .ldStVx x => Laws.RowShape.ldStVx x
  | .addI x => Laws.RowShape.addI x
  | .fontAddr x => Laws.RowShape.fontAddr x
  | .bcd x => Laws.RowShape.bcd x
  | .store x => Laws.RowShape.store x
  | .load x => Laws.RowShape.load x
  | .unknown op => Laws.RowShape.unknown op

theorem decode_and_row_mask (op : Word) : op &&& (decode op).row.mask = (decode op).row.pattern := by
  have h := encode_and_row_mask (decode op)
  rwa [encode_decode] at h

theorem row_mem_opcodeRows_iff (i : Instr) : i.row ∈ opcodeRows ↔ ∀ op, i ≠ .unknown op := by
  cases i with
  | unknown op => exact iff_of_false (show ⟨0x0000#16, 0x0000#16⟩ ∉ opcodeRows by decide) fun h => h op rfl
  | _ => simp [Instr.row, opcodeRows]

/-- Settles O5: a matching row is the decoded instruction's by the fields its mask keeps, and the decoded instruction's
row matches by the encoder; of the instructions, `unknown` alone has none of the 34 rows. -/
theorem decodeSelectsTheTableRow : Obligations.DecodeSelectsTheTableRow := by
  intro op
  have hmatch : ∀ row ∈ opcodeRows, op &&& row.mask = row.pattern ↔ (decode op).row = row :=
    fun row hrow => ⟨decode_row_of_match hrow, fun h => h ▸ decode_and_row_mask op⟩
  refine ⟨hmatch, fun hnone => ?_, fun hunknown row hrow h => ?_⟩
  · by_contra hne
    have hrow : (decode op).row ∈ opcodeRows :=
      (row_mem_opcodeRows_iff _).2 fun w hw => hne (eq_of_decode_eq_unknown hw ▸ hw)
    exact hnone _ hrow (decode_and_row_mask op)
  · rw [← decode_row_of_match hrow h] at hrow
    exact (row_mem_opcodeRows_iff _).1 hrow op hunknown

/-! The token `UNKNOWN`. -/

theorem reportedToken_eq_unknown_iff {i : Instr} (hwf : i.wellFormed = true) (pc0 : Nat) :
    reportedToken i pc0 = .unknown ↔ unknownWord (encode i) = true := by
  cases i with
  | unknown op =>
    obtain ⟨hlisted, -⟩ := Bool.and_eq_true_iff.1 hwf
    exact iff_of_true rfl hlisted
  | cls | ret => exact iff_of_false Token.noConfusion (by decide)
  | jp nnn =>
    have htoken : reportedToken (.jp nnn) pc0 ≠ .unknown := by
      simp only [reportedToken]; split_ifs <;> exact Token.noConfusion
    simp [htoken, unknownWord_iff, encode, fieldMajor_encodeNnn]
  | call | ldI | jpV0 => simp [reportedToken, unknownWord_iff, encode, fieldMajor_encodeNnn]
  | seReg | sneReg | drw | ldReg | orReg | andReg | xorReg | addReg | sub | shr | subn | shl =>
    simp [reportedToken, unknownWord_iff, encode, fieldMajor_encodeXyn, fieldN_encodeXyn]
  | _ => simp [reportedToken, unknownWord_iff, encode, fieldMajor_encodeXnn, fieldNn_encodeXnn]

/-- Settles O6: a completed cycle reports the token of its instruction, whose word is the word fetched. -/
theorem unknownReportedExactlyForTheListedWords : Obligations.UnknownReportedExactlyForTheListedWords := by
  intro s t op hfault hfetch hstep hcomplete
  rw [step_of_fetch hfault hfetch] at hstep
  obtain ⟨hword, hwf⟩ := encodeOfDecode op
  obtain ⟨c, -, rfl⟩ | ⟨-, rfl⟩ := exec_next hstep
  · simp at hcomplete
  · show reportedToken (decode op) s.pc.toNat = .unknown ↔ unknownWord op = true
    rw [reportedToken_eq_unknown_iff hwf, hword]

/-- Settles O2 from the laws of the fields. -/
theorem fieldsAreUnsignedDigits : Obligations.FieldsAreUnsignedDigits := fun op =>
  ⟨fieldX_val op, fieldY_val op, fieldN_val op, fieldNn_toNat op, fieldNnn_toNat op,
    (addrOperand_toNat _).trans (fieldNnn_toNat op)⟩

/-- Settles O1 by decoding each word. -/
theorem knownWordsDecode : Obligations.KnownWordsDecode := by
  unfold Obligations.KnownWordsDecode
  decide

end Sys2Proof
end

section
/-! SUPPORT. The cycle and its dispatch (spec/40_cycle_and_dispatch.md): the word a step fetches, the state a completed
cycle ends in, the input `rnd`, the faulted machine, and the words that report `UNKNOWN`. -/

namespace Sys2Proof.Machine

/-! The state after a completed cycle. -/

/-- The state a cycle of `i` ends in when `i` raises no fault (40_cycle_and_dispatch.md R100). -/
def State.cycled (s : State) (i : Instr) : State :=
  { ownEffect i s.rnd (s.dispatched (encode i)) with lastClass := reportedToken i s.pc.toNat }

theorem exec_eq_cycled {i : Instr} {s : State} (h : raisedCause i s = none) : exec i s = .next (s.cycled i) :=
  exec_of_raisedCause_none h

theorem exec_eq_raise {i : Instr} {s : State} {c : FaultCause} (h : raisedCause i s = some c) :
    exec i s = .next (s.raise c (some (encode i))) := by
  rw [exec_eq_completeUnless, h]; rfl

/-- A step that leaves no fault recorded has run the fetched word's instruction to its end. -/
theorem step_completed {s t : State} {op : Word} (hfetch : s.fetch = .ok op) (hstep : step s = .next t)
    (hcomplete : t.fault = none) : t = s.cycled (decode op) := by
  rw [step_of_fetch (step_next hstep).1 hfetch] at hstep
  obtain ⟨c, -, rfl⟩ | ⟨-, ht⟩ := exec_next hstep
  · simp at hcomplete
  · exact ht

/-! What each effect leaves of the fields the common part writes (R102 to R104). -/

@[simp] theorem ownEffect_lastOp (i : Instr) (rnd : Byte) (d : State) : (ownEffect i rnd d).lastOp = d.lastOp := by
  cases i <;> simp [ownEffect]

@[simp] theorem ownEffect_fault (i : Instr) (rnd : Byte) (d : State) : (ownEffect i rnd d).fault = d.fault := by
  cases i <;> simp [ownEffect]

theorem ownEffect_td (i : Instr) (rnd : Byte) (d : State) :
    (ownEffect i rnd d).td = d.td ∨ ∃ x, i = .ldDtVx x := by
  cases i with
  | ldDtVx x => exact .inr ⟨x, rfl⟩
  | _ => exact .inl (by simp [ownEffect])

theorem ownEffect_ts (i : Instr) (rnd : Byte) (d : State) :
    (ownEffect i rnd d).ts = d.ts ∨ ∃ x, i = .ldStVx x := by
  cases i with
  | ldStVx x => exact .inr ⟨x, rfl⟩
  | _ => exact .inl (by simp [ownEffect])

theorem State.cycled_reports (s : State) (i : Instr) : Reports i (reportedToken i s.pc.toNat) s (s.cycled i) where
  lastOp := ownEffect_lastOp i s.rnd _
  lastClass := rfl
  fault := ownEffect_fault i s.rnd _
  keys := ownEffect_keys i s.rnd _
  config := ownEffect_config i s.rnd _

theorem State.cycled_td {s : State} {i : Instr} (h : ∀ x, i ≠ .ldDtVx x) :
    (s.cycled i).td.toNat = s.td.toNat - 1 := by
  have hkept := (ownEffect_td i s.rnd (s.dispatched (encode i))).resolve_right fun ⟨x, hx⟩ => h x hx
  exact (congrArg BitVec.toNat hkept).trans (timerTick_toNat s.td)

theorem State.cycled_ts {s : State} {i : Instr} (h : ∀ x, i ≠ .ldStVx x) :
    (s.cycled i).ts.toNat = s.ts.toNat - 1 := by
  have hkept := (ownEffect_ts i s.rnd (s.dispatched (encode i))).resolve_right fun ⟨x, hx⟩ => h x hx
  exact (congrArg BitVec.toNat hkept).trans (timerTick_toNat s.ts)

theorem State.cycled_advances {s : State} {i : Instr} (h : ¬ writesPc i) : Advances s (s.cycled i) 2 := by
  have hkept := (ownEffect_pc i s.rnd (s.dispatched (encode i))).resolve_right h
  exact (congrArg BitVec.toNat hkept).trans (BitVec.toNat_add s.pc 2#16)

/-- Settles O14: no effect writes `lastOp`, and the word of the decoded instruction is the word fetched. -/
theorem lastOpAndTokenOfEveryCycle : Obligations.LastOpAndTokenOfEveryCycle := by
  intro s t op _ hfetch hstep hcomplete
  obtain rfl := step_completed hfetch hstep hcomplete
  have hreports := s.cycled_reports (decode op)
  exact ⟨hreports.lastOp.trans (encode_decode op), hreports.lastClass⟩

/-- Settles O15: only Fx15 writes `TD` after the decrement, and only Fx18 `TS`. -/
theorem timersCountCycles : Obligations.TimersCountCycles := by
  intro s t op _ hfetch hstep hcomplete
  obtain rfl := step_completed hfetch hstep hcomplete
  refine ⟨State.cycled_td, fun x hx => ?_, State.cycled_ts, fun x hx => ?_⟩
  · rw [hx]; rfl
  · rw [hx]; rfl

/-- Settles O16: the common part advances `PC`, and only the instructions of R41's row write it again. -/
theorem otherInstructionsAdvanceByTwo : Obligations.OtherInstructionsAdvanceByTwo := by
  intro s t op _ hfetch hstep hcomplete hpc
  obtain rfl := step_completed hfetch hstep hcomplete
  exact State.cycled_advances hpc

/-! The input `rnd` (R109). -/

@[simp] theorem raisedCause_withRnd (i : Instr) (s : State) (rnd : Byte) :
    raisedCause i { s with rnd := rnd } = raisedCause i s := by
  cases i <;> rfl

/-- A cycle uses its input up, so that only Cxnn can keep something of it. -/
theorem State.cycled_withRnd {i : Instr} (h : ∀ x nn, i ≠ .rnd x nn) (s : State) (a b : Byte) :
    State.cycled { s with rnd := a } i = State.cycled { s with rnd := b } i := by
  cases i with
  | rnd x nn => exact absurd rfl (h x nn)
  | _ => rfl

theorem State.hostStep_of_next {s t : State} {rnd : Byte} (h : step { s with rnd := rnd } = .next t) :
    s.hostStep rnd = t := by
  rw [State.hostStep, h]

theorem step_of_faulted {s : State} {r : FaultRecord} (h : s.fault = some r) : step s = .fault (.stuck r) := by
  rw [step, h]

theorem State.hostStep_of_faulted {s : State} {r : FaultRecord} (h : s.fault = some r) (rnd : Byte) :
    s.hostStep rnd = s := by
  rw [State.hostStep, step_of_faulted (s := { s with rnd := rnd }) h]

/-- Settles O26: a faulted machine stays as it is, a fault writes its record alone, and a completed cycle of another
instruction ends in one state for all inputs. -/
theorem randomByteReachesOnlyRnd : Obligations.RandomByteReachesOnlyRnd := by
  intro s a b op hfetch hother
  cases hfault : s.fault with
  | some r => rw [State.hostStep_of_faulted hfault, State.hostStep_of_faulted hfault]
  | none =>
    have hstep (rnd : Byte) : step { s with rnd := rnd } = exec (decode op) { s with rnd := rnd } :=
      step_of_fetch hfault hfetch
    cases hcause : raisedCause (decode op) s with
    | some c =>
      have hraise (rnd : Byte) : s.hostStep rnd = State.raise { s with rnd := rnd } c (some (encode (decode op))) :=
        State.hostStep_of_next ((hstep rnd).trans (exec_eq_raise ((raisedCause_withRnd _ s rnd).trans hcause)))
      rw [hraise, hraise]; rfl
    | none =>
      have hcycled (rnd : Byte) : s.hostStep rnd = State.cycled { s with rnd := rnd } (decode op) :=
        State.hostStep_of_next ((hstep rnd).trans (exec_eq_cycled ((raisedCause_withRnd _ s rnd).trans hcause)))
      rw [hcycled, hcycled, State.cycled_withRnd hother s a b]

/-! The fetch (R101; 20_memory.md R61, R63). -/

theorem State.fetch_of_bytes {s : State} {op : Word} (hpc : s.pc.toNat ≤ 0xFFE)
    (hop : op.toNat = (s.mem.read s.pc.toNat).toNat * 256 + (s.mem.read (s.pc.toNat + 1)).toNat) :
    s.fetch = .ok op :=
  (s.fetch_ok_iff op).2
    ⟨Nat.lt_succ_of_le (Nat.succ_le_succ hpc), BitVec.eq_of_toNat_eq (hop.trans (wordOfBytes_toNat _ _).symm)⟩

theorem step_of_fetch_error {s : State} {c : FaultCause} (hfault : s.fault = none) (h : s.fetch = .error c) :
    step s = .next (s.raise c none) := by
  simp only [step, hfault, h]

/-- Settles O7: the two bytes are the word the fetch answers. -/
theorem stepRunsTheFetchedInstruction : Obligations.StepRunsTheFetchedInstruction :=
  fun _ _ hfault hpc hop => step_of_fetch hfault (State.fetch_of_bytes hpc hop)

/-- Settles O9: the fetch reads two bytes of memory, or names the first address past it. -/
theorem fetchFault : Obligations.FetchFault := by
  intro s hfault
  refine ⟨fun hpc => ?_, fun hpc => ?_, fun hpc => ?_⟩
  · rw [step_of_fetch_error hfault (State.fetch_error (by simp only [memSize]; omega)), hpc]; rfl
  · rw [step_of_fetch_error hfault (State.fetch_error (by simp only [memSize]; omega)),
      Nat.max_eq_left (by simp only [memSize]; omega)]
    rfl
  · exact ⟨_, State.fetch_ok (by simp only [memSize]; omega), wordOfBytes_toNat _ _⟩

theorem tableWord_toNat (op : Word) : tableWord 16 op.toNat = op := by
  rw [tableWord, Nat.mod_eq_of_lt op.isLt, BitVec.ofNat_toNat, BitVec.setWidth_eq]

/-- The fetch reads a placed word back. -/
theorem State.fetch_withFetchWord {s : State} (hwf : s.mem.wf = true) (hpc : s.pc.toNat ≤ 0xFFE) (op : Word) :
    (s.withFetchWord 16 op.toNat).fetch = .ok op := by
  have hfit : s.pc.toNat + (bytesOfWord op).length ≤ memSize := Nat.add_le_add_right hpc 2
  have hhi := Memory.read_writeList_inside (bytesOfWord op) hwf hfit (k := 0) Nat.zero_lt_two
  have hlo := Memory.read_writeList_inside (bytesOfWord op) hwf hfit (k := 1) Nat.one_lt_two
  refine (State.fetch_ok_iff _ op).2 ⟨Nat.lt_succ_of_le (Nat.succ_le_succ hpc), ?_⟩
  simp only [State.withFetchWord, tableWord_toNat]
  exact ((congrArg₂ wordOfBytes hhi hlo).trans (wordOfBytes_bytesOfWord op)).symm

/-- Settles O8: the placed word is the one fetched, and placing it records no fault. -/
theorem placedWordRunsNext : Obligations.PlacedWordRunsNext :=
  fun _ op hfault hwf hpc => step_of_fetch hfault (State.fetch_withFetchWord hwf hpc op)

/-! The faulted machine (R108). -/

@[simp] theorem State.load_fault (s : State) (image : List Byte) : (s.load image).1.fault = s.fault := by
  unfold State.load; split <;> rfl

/-- Settles O10, operation by operation. -/
theorem faultedMachineDoesNotStep : Obligations.FaultedMachineDoesNotStep := by
  intro s r hfault
  refine ⟨step_of_faulted hfault, fun rnd => ?_, fun image => ?_, fun k => ⟨hfault, hfault⟩, rfl, fun _ _ => rfl⟩
  · exact congrArg (·, HostResult.done) (State.hostStep_of_faulted hfault rnd)
  · exact (s.load_fault image).trans hfault

/-! The words that report `UNKNOWN` (R107). -/

theorem raisedCause_of_unknown {i : Instr} {pc0 : Nat} (h : reportedToken i pc0 = .unknown) (s : State) :
    raisedCause i s = none := by
  cases i with
  | ret | call | drw | bcd | store | load => cases h
  | _ => rfl

/-- An instruction that reports `UNKNOWN` has no effect of its own. -/
theorem ownEffect_of_unknown {i : Instr} {pc0 : Nat} (h : reportedToken i pc0 = .unknown) (rnd : Byte) (d : State) :
    ownEffect i rnd d = d := by
  cases i with
  | keyPressedSkip | keyNotPressedSkip | waitKey | fontAddr | unknown => rfl
  | jp nnn => simp only [reportedToken] at h; split at h <;> cases h
  | _ => cases h

/-- The common part of a cycle alone. -/
theorem exec_of_unknown {i : Instr} {s : State} (h : reportedToken i s.pc.toNat = .unknown) :
    ∃ t, exec i s = .next t ∧ Sequential i .unknown s t ∧ RegisterFrame s t [] := by
  refine ⟨{ s.dispatched (encode i) with lastClass := .unknown }, ?_, ?_, ?_⟩
  · rw [exec_eq_cycled (raisedCause_of_unknown h s), State.cycled, h, ownEffect_of_unknown h]
  · exact ⟨⟨rfl, rfl, rfl, rfl, rfl⟩, BitVec.toNat_add s.pc 2#16, timerTick_toNat s.td, timerTick_toNat s.ts⟩
  · exact ⟨fun _ _ => rfl, rfl, ⟨rfl, rfl⟩, fun _ => rfl, fun _ _ => rfl⟩

/-- Settles O54: a listed word's instruction reports `UNKNOWN`, and so does the constructor `unknown`. -/
theorem unknownWordsDoNothing : Obligations.UnknownWordsDoNothing := by
  intro op s
  refine ⟨fun hlisted => ?_, ?_⟩
  · obtain ⟨hword, hwf⟩ := encodeOfDecode op
    obtain ⟨t, hexec, hseq, hframe⟩ :=
      exec_of_unknown (s := s) ((reportedToken_eq_unknown_iff hwf s.pc.toNat).2 (hword.symm ▸ hlisted))
    exact ⟨t, hexec, hseq, hseq.reports.lastOp.trans hword, hframe⟩
  · obtain ⟨t, hexec, hseq, hframe⟩ := exec_of_unknown (i := .unknown op) (s := s) rfl
    exact ⟨t, hexec, hseq, hseq.reports.lastOp, hframe⟩

end Sys2Proof.Machine
end

section
/-! SUPPORT. The system and flow instructions 00E0, 00EE, 1nnn, 2nnn and Bnnn (spec/41_system_and_flow.md): where each
goes, what it does to the call stack, and what it leaves. -/

namespace Sys2Proof.Machine

/-! Both timers tick in every cycle but those that write one (40_cycle_and_dispatch.md R103). -/

theorem State.cycled_ticks {s : State} {i : Instr} (htd : ∀ x, i ≠ .ldDtVx x) (hts : ∀ x, i ≠ .ldStVx x) :
    Ticks s (s.cycled i) :=
  ⟨State.cycled_td htd, State.cycled_ts hts⟩

/-- Settles O27: the effect writes the framebuffer alone. -/
theorem clsClearsTheFramebuffer : Obligations.ClsClearsTheFramebuffer := fun s =>
  ⟨s.cycled .cls, exec_eq_cycled rfl,
    ⟨s.cycled_reports .cls, State.cycled_advances not_false, State.cycled_ticks nofun nofun⟩,
    Framebuffer.cell_clear, fun _ _ => rfl, rfl, ⟨rfl, rfl⟩, fun _ => rfl⟩

/-! Jumps (R122, R124). -/

/-- A completed cycle whose effect is a write of `PC`. -/
theorem State.dispatched_pc_registerFrame (s : State) (op pc : Word) (token : Token) :
    RegisterFrame s { s.dispatched op with pc := pc, lastClass := token } [] :=
  ⟨fun _ _ => rfl, rfl, ⟨rfl, rfl⟩, fun _ => rfl, fun _ _ => rfl⟩

/-- Settles O30: the table's token of 1nnn is the one stated. -/
theorem jumpGoesToItsTarget : Obligations.JumpGoesToItsTarget := fun nnn s =>
  ⟨s.cycled (.jp nnn), exec_eq_cycled rfl, s.cycled_reports (.jp nnn), State.cycled_ticks nofun nofun,
    addrOperand_toNat nnn, s.dispatched_pc_registerFrame _ _ _⟩

/-- The target of Bnnn is not truncated: 0xFFF + 0xFF fits 16 bits (R124). -/
theorem addrOperand_add_setWidth_toNat (nnn : Addr12) (b : Byte) :
    (addrOperand nnn + b.setWidth 16).toNat = nnn.toNat + b.toNat := by
  have hnnn := addrOperand_toNat nnn
  bv_omega

/-- Settles O34: the sum of a 12-bit address and a byte does not wrap. -/
theorem jumpWithOffset : Obligations.JumpWithOffset := fun nnn s =>
  ⟨s.cycled (.jpV0 nnn), exec_eq_cycled rfl, s.cycled_reports (.jpV0 nnn), State.cycled_ticks nofun nofun,
    addrOperand_add_setWidth_toNat nnn (s.reg 0), s.dispatched_pc_registerFrame _ _ _⟩

/-! The jump to itself (R122; 70_reset_and_hazards.md R251). -/

theorem reportedToken_eq_jpSelf {i : Instr} {pc0 : Nat} (h : reportedToken i pc0 = .jpSelf) :
    ∃ nnn, i = .jp nnn ∧ nnn.toNat = pc0 := by
  cases i with
  | jp nnn =>
    refine ⟨nnn, rfl, ?_⟩
    by_contra hne
    simp [reportedToken, hne] at h
  | _ => cases h

/-- The fetch reads `PC` and memory alone. -/
theorem State.fetch_congr {s t : State} (hpc : t.pc = s.pc) (hmem : t.mem = s.mem) : t.fetch = s.fetch := by
  simp only [State.fetch, State.memRead, hpc, hmem]

/-- What a jump to itself writes besides the timers and the random input, the state after one holds already. -/
theorem State.cycled_jp_self {t : State} {nnn : Addr12} (hpc : t.pc = addrOperand nnn)
    (hop : t.lastOp = encode (.jp nnn)) (htoken : t.lastClass = .jpSelf) :
    t.cycled (.jp nnn) =
      { t with td := timerTick t.td, ts := timerTick t.ts, rnd := Config.freeByte t.draws, draws := t.draws + 1 } := by
  have hself : reportedToken (.jp nnn) t.pc.toNat = t.lastClass := by
    rw [htoken, hpc, addrOperand_toNat]; exact if_pos rfl
  rw [State.cycled, hself, ← hop]
  simp only [ownEffect, State.dispatched, ← hpc]

/-- Settles O18: only 1nnn on its own address reports `JP_SELF`; it leaves `PC` and memory as they are, so the next
step fetches and runs it again. -/
theorem jumpToSelfIsAFixedPoint : Obligations.JumpToSelfIsAFixedPoint := by
  intro s t hfault hstep hcomplete htoken
  obtain ⟨-, ⟨c, -, rfl⟩ | ⟨op, hfetch, -⟩⟩ := step_next hstep
  · simp at hcomplete
  obtain rfl := step_completed hfetch hstep hcomplete
  obtain ⟨nnn, hjp, hself⟩ := reportedToken_eq_jpSelf htoken
  rw [hjp] at hcomplete htoken ⊢
  have hpc : (s.cycled (.jp nnn)).pc = s.pc := (addrOperand_eq_iff nnn s.pc).2 hself
  have hnext : step (s.cycled (.jp nnn)) = .next ((s.cycled (.jp nnn)).cycled (.jp nnn)) := by
    rw [step_of_fetch hcomplete ((State.fetch_congr hpc rfl).trans hfetch), hjp]
    exact exec_eq_cycled rfl
  exact ⟨_, hnext, State.cycled_ticks nofun nofun, State.cycled_jp_self rfl rfl htoken⟩

/-! The call stack (10_state.md R29). -/

theorem State.slot_setSlot_other (s : State) {k j : Nat} (w : Word) (h : j ≠ k) :
    (s.setSlot k w).slot j = s.slot j := by
  simp only [State.slot_eq, State.setSlot_stack, List.getD_eq_getElem?_getD, List.getElem?_set_ne h.symm]

/-- A cleared slot reads 0, past the depth too (log 5). -/
theorem State.slot_setSlot_zero (s : State) (k : Nat) : (s.setSlot k 0#16).slot k = 0#16 := by
  by_cases hk : k < s.stack.length
  · rw [State.slot_setSlot s k k _ hk, if_pos rfl]
  · rw [State.slot_eq, State.setSlot_stack, List.getD_eq_default]
    rw [List.length_set]; omega

/-- A pop takes back a push onto a slot that held 0, because it clears the slot (D18). -/
theorem State.pop_push {s : State} (hlen : s.sp.toNat < s.stack.length) (hzero : s.slot s.sp.toNat = 0#16) :
    s.push.pop = s := by
  have hsp : s.push.sp - 1#8 = s.sp := BitVec.add_sub_cancel s.sp 1#8
  have hpc : s.push.slot s.sp.toNat = s.pc := by
    show (s.setSlot s.sp.toNat s.pc).slot s.sp.toNat = s.pc
    rw [State.slot_setSlot _ _ _ _ hlen, if_pos rfl]
  have hstack : s.push.stack.set s.sp.toNat 0#16 = s.stack := by
    have hkept : s.stack[s.sp.toNat] = 0#16 := by rw [← hzero, State.slot_eq, List.getD_eq_getElem _ _ hlen]
    rw [State.push_stack, List.set_set, ← hkept, List.set_getElem_self]
  calc s.push.pop
      = { s with
          sp := s.push.sp - 1#8
          pc := s.push.slot (s.push.sp - 1#8).toNat
          stack := s.push.stack.set (s.push.sp - 1#8).toNat 0#16 } := rfl
    _ = s := by rw [hsp, hpc, hstack]

/-! Calls and returns (R121, R123). -/

theorem raisedCause_ret {s : State} (h : 0 < s.sp.toNat) : raisedCause .ret s = none :=
  if_neg fun hsp => by simp [hsp] at h

theorem raisedCause_call {s : State} (nnn : Addr12) (h : s.sp.toNat < s.config.stackDepth) :
    raisedCause (.call nnn) s = none :=
  if_neg (by omega)

/-- Settles O28: the effect is the pop, which writes the slot below `SP` alone. -/
theorem retPops : Obligations.RetPops := by
  intro s hsp
  have hsp' : (s.sp - 1#8).toNat = s.sp.toNat - 1 := by bv_omega
  refine ⟨s.cycled .ret, exec_eq_cycled (raisedCause_ret hsp), s.cycled_reports .ret, State.cycled_ticks nofun nofun,
    hsp', ?_⟩
  rw [← hsp']
  exact ⟨rfl, s.slot_setSlot_zero _, fun k hk => s.slot_setSlot_other _ hk, List.length_set,
    fun _ _ => rfl, rfl, fun _ => rfl, fun _ _ => rfl⟩

/-- Settles O31: the effect is the push of the advanced `PC`, which writes the slot at `SP` alone, and the jump. -/
theorem callPushesAndJumps : Obligations.CallPushesAndJumps := by
  intro nnn s hfree hlen hdepth
  have hslot : (s.cycled (.call nnn)).slot s.sp.toNat = s.pc + 2#16 :=
    (s.slot_setSlot _ _ (s.pc + 2#16) (hlen ▸ hfree)).trans (if_pos rfl)
  have hsp : (s.sp + 1#8).toNat = s.sp.toNat + 1 := by bv_omega
  exact ⟨s.cycled (.call nnn), exec_eq_cycled (raisedCause_call nnn hfree), s.cycled_reports (.call nnn),
    State.cycled_ticks nofun nofun, (congrArg BitVec.toNat hslot).trans (BitVec.toNat_add s.pc 2#16),
    fun k hk => s.slot_setSlot_other _ hk, hsp, addrOperand_toNat nnn, List.length_set,
    fun _ _ => rfl, rfl, fun _ => rfl, fun _ _ => rfl⟩

/-- Settles O33: 00EE pops what 2nnn pushed on the state it was dispatched in, and the slot was free. -/
theorem callThenReturnRoundTrip : Obligations.CallThenReturnRoundTrip := by
  intro nnn s hinv hfree
  have hback : (s.dispatched (encode (.call nnn))).push.pop = s.dispatched (encode (.call nnn)) :=
    State.pop_push (hinv.stackLen ▸ hfree) (hinv.freeZero _ le_rfl)
  have hsp : 0 < (s.cycled (.call nnn)).sp.toNat := (hinv.push_sp_toNat hfree).symm ▸ Nat.succ_pos _
  exact ⟨_, _, exec_eq_cycled (raisedCause_call nnn hfree), exec_eq_cycled (raisedCause_ret hsp),
    (congrArg (·.pc.toNat) hback).trans (BitVec.toNat_add s.pc 2#16), (congrArg State.sp hback :),
    (congrArg State.stack hback :)⟩

end Sys2Proof.Machine
end

section
/-! SUPPORT. The four skips 3xnn, 4xnn, 5xy0 and 9xy0 (spec/42_skips.md): a skip writes `PC` alone, and the words of
majors 5 and 9 that are no skip. -/

namespace Sys2Proof.Machine

theorem State.skipIf_eq (s : State) (c : Bool) :
    s.skipIf c = { s with pc := if c then s.pc + 2#16 else s.pc } := by
  cases c <;> rfl

/-- The 2 of the common part and the 2 of the skip, each added modulo 65536, are one 4 (R130). -/
theorem State.skipIf_dispatched_pc_toNat (s : State) (op : Word) (c : Bool) :
    ((s.dispatched op).skipIf c).pc.toNat = (s.pc.toNat + if c then 4 else 2) % 65536 := by
  rw [State.skipIf_pc, State.dispatched_pc]
  cases c with
  | false => exact BitVec.toNat_add s.pc 2#16
  | true => rw [if_pos rfl, if_pos rfl, BitVec.add_assoc]; exact BitVec.toNat_add s.pc 4#16

/-- A cycle whose effect is a skip: the common part, and `PC` by the length the condition chooses. -/
theorem exec_of_skip {i : Instr} {token : Token} {s : State} (c : Bool) {k : Nat}
    (hexec : exec i s = .next { (s.dispatched (encode i)).skipIf c with lastClass := token })
    (hk : (if c then 4 else 2) = k) :
    ∃ t, exec i s = .next t ∧ Reports i token s t ∧ Ticks s t ∧ Advances s t k ∧ RegisterFrame s t [] := by
  have hpc := s.skipIf_dispatched_pc_toNat (encode i) c
  rw [State.skipIf_eq] at hexec
  rw [hk, State.skipIf_eq] at hpc
  exact ⟨_, hexec, ⟨rfl, rfl, rfl, rfl, rfl⟩, ⟨timerTick_toNat s.td, timerTick_toNat s.ts⟩, hpc,
    s.dispatched_pc_registerFrame _ _ _⟩

/-- A word of major 5 or 9 whose low nibble is not 0 has no row of its own (30_encoding.md R87). -/
theorem decode_eq_unknown_of_low_nibble {op : Word} (hmajor : op.toNat / 4096 = 5 ∨ op.toNat / 4096 = 9)
    (hlow : op.toNat % 16 ≠ 0) : decode op = .unknown op := by
  rw [← fieldMajor_eq] at hmajor
  rw [← fieldN_val] at hlow
  obtain hmajor | hmajor := hmajor
  · simp only [decode, hmajor, if_neg hlow]
  · simp only [decode, hmajor, if_neg hlow]

/-- Settles O35: the condition reads registers the common part leaves as they were, and bytes are equal exactly when
their values are. -/
theorem skipsTestTheirCondition : Obligations.SkipsTestTheirCondition := by
  intro x y nn s
  refine ⟨exec_of_skip (decide (s.reg x = nn)) (exec_seImm x nn s) ?_,
    exec_of_skip (decide (s.reg x ≠ nn)) (exec_sneImm x nn s) ?_,
    exec_of_skip (decide (s.reg x = s.reg y)) (exec_seReg x y s) ?_,
    exec_of_skip (decide (s.reg x ≠ s.reg y)) (exec_sneReg x y s) ?_, fun op hmajor hlow => ?unknown⟩
  case unknown =>
    rw [decode_eq_unknown_of_low_nibble hmajor hlow]
    exact exec_of_unknown rfl
  all_goals simp [BitVec.toNat_inj]

end Sys2Proof.Machine
end

section
/-! SUPPORT. The loads and the addition of 6xnn, 7xnn, Annn and Cxnn (spec/43_load_add_random.md): a cycle that writes
one general register, and the byte it writes. -/

namespace Sys2Proof.Machine

/-- A completed cycle whose effect is a write of one general register. -/
theorem State.dispatched_setReg_registerFrame (s : State) (op : Word) (x : Reg) (b : Byte) (token : Token) :
    RegisterFrame s { (s.dispatched op).setReg x b with lastClass := token } [x] :=
  ⟨fun _ hr => State.reg_setReg_other _ b (List.ne_of_not_mem_cons hr), rfl, ⟨rfl, rfl⟩, fun _ => rfl, fun _ _ => rfl⟩

/-- A cycle whose effect is a write of `V[x]`: the common part, the byte, and no flag. -/
theorem exec_of_setReg {i : Instr} {token : Token} {s : State} {x : Reg} {b : Byte}
    (hexec : exec i s = .next { (s.dispatched (encode i)).setReg x b with lastClass := token }) :
    ∃ t, exec i s = .next t ∧ Sequential i token s t ∧ t.reg x = b ∧ RegisterFrame s t [x] :=
  ⟨_, hexec,
    ⟨⟨rfl, rfl, rfl, rfl, rfl⟩, BitVec.toNat_add s.pc 2#16, timerTick_toNat s.td, timerTick_toNat s.ts⟩,
    State.reg_setReg_same _ x b, s.dispatched_setReg_registerFrame _ x b token⟩

/-- Settles O36: both write `V[x]` alone, and addition of bytes is modulo 256. -/
theorem immediateLoadAndAdd : Obligations.ImmediateLoadAndAdd := by
  intro x nn s
  obtain ⟨t, hexec, hseq, hx, hframe⟩ := exec_of_setReg (exec_addImm x nn s)
  exact ⟨exec_of_setReg (exec_ldImm x nn s),
    t, hexec, hseq, (congrArg BitVec.toNat hx).trans (BitVec.toNat_add (s.reg x) nn), hframe⟩

/-- Settles O37: the effect writes `I` alone, with the zero-extended address. -/
theorem loadAddressRegister : Obligations.LoadAddressRegister := fun nnn s =>
  ⟨s.cycled (.ldI nnn), exec_eq_cycled rfl,
    ⟨s.cycled_reports (.ldI nnn), State.cycled_advances not_false, State.cycled_ticks nofun nofun⟩,
    addrOperand_toNat nnn, fun _ _ => rfl, ⟨rfl, rfl⟩, fun _ => rfl, fun _ _ => rfl⟩

/-- Settles O38: a byte masked with `nn` is at most `nn`. -/
theorem randomByteIsMasked : Obligations.RandomByteIsMasked := by
  intro x nn s
  obtain ⟨t, hexec, hseq, hx, hframe⟩ := exec_of_setReg (exec_rnd x nn s)
  have hle : (s.rnd &&& nn).toNat ≤ nn.toNat := by
    rw [BitVec.toNat_and]; exact Nat.and_le_right
  exact ⟨t, hexec, hseq, hx, hx ▸ hle, hframe⟩

end Sys2Proof.Machine
end

section
/-! SUPPORT. The ALU instructions 8xy0 to 8xy7 and 8xyE (spec/44_alu.md): a cycle that writes the flag and then the
result, and the values the flags and the results have. -/

namespace Sys2Proof.Machine

/-- Settles O39: all four write `V[x]` alone, and the operators on bytes work bit by bit. -/
theorem moveAndBitwise : Obligations.MoveAndBitwise := by
  intro x y s
  obtain ⟨tor, horExec, horSeq, hor, horFrame⟩ := exec_of_setReg (exec_orReg x y s)
  obtain ⟨tand, handExec, handSeq, hand, handFrame⟩ := exec_of_setReg (exec_andReg x y s)
  obtain ⟨txor, hxorExec, hxorSeq, hxor, hxorFrame⟩ := exec_of_setReg (exec_xorReg x y s)
  exact ⟨exec_of_setReg (exec_ldReg x y s),
    ⟨tor, horExec, horSeq, fun _ => hor ▸ BitVec.getLsbD_or, horFrame⟩,
    ⟨tand, handExec, handSeq, fun _ => hand ▸ BitVec.getLsbD_and, handFrame⟩,
    ⟨txor, hxorExec, hxorSeq, fun _ => hxor ▸ BitVec.getLsbD_xor, hxorFrame⟩⟩

/-! A cycle that writes the flag and then the result (R150). -/

theorem State.reg_setFlagThenReg_same (s : State) (f b : Byte) (x : Reg) : (s.setFlagThenReg f x b).reg x = b := by
  rw [State.reg_setFlagThenReg, if_pos rfl]

theorem State.reg_setFlagThenReg_flag (s : State) (f b : Byte) {x : Reg} (hx : x ≠ 15) :
    (s.setFlagThenReg f x b).reg 15 = f := by
  rw [State.reg_setFlagThenReg, if_neg hx.symm]; exact if_pos rfl

/-- A completed cycle whose effect is a write of the flag and of one general register. -/
theorem State.dispatched_setFlagThenReg_registerFrame (s : State) (op : Word) (f : Byte) (x : Reg) (b : Byte)
    (token : Token) :
    RegisterFrame s { (s.dispatched op).setFlagThenReg f x b with lastClass := token } [x, 15] where
  regs _ hr :=
    have hflag := List.not_mem_of_not_mem_cons hr
    State.reg_setFlagThenReg_other _ f b (List.ne_of_not_mem_cons hr) (List.ne_of_not_mem_cons hflag)
  i := rfl
  stack := ⟨rfl, rfl⟩
  mem _ := rfl
  fb _ _ := rfl

/-- A cycle whose effect is a write of the flag, then of `V[x]`: the flag shows unless `V[x]` is `VF`. -/
theorem exec_of_setFlagThenReg {i : Instr} {token : Token} {s : State} {f : Byte} {x : Reg} {b : Byte}
    (hexec : exec i s = .next { (s.dispatched (encode i)).setFlagThenReg f x b with lastClass := token }) :
    ∃ t, exec i s = .next t ∧ Sequential i token s t ∧ t.reg x = b ∧ (x ≠ 15 → t.reg 15 = f) ∧
      RegisterFrame s t [x, 15] :=
  ⟨_, hexec,
    ⟨⟨rfl, rfl, rfl, rfl, rfl⟩, BitVec.toNat_add s.pc 2#16, timerTick_toNat s.td, timerTick_toNat s.ts⟩,
    State.reg_setFlagThenReg_same _ f b x, State.reg_setFlagThenReg_flag _ f b,
    s.dispatched_setFlagThenReg_registerFrame _ f x b token⟩

/-! The flag of 8xy4, 8xy5 and 8xy7 under `FLAG_MODE` (R151). -/

theorem aluFlag_of_lt (mode : FlagMode) (old : Byte) {m n : Nat} (h : m < n) :
    aluFlag mode (decide (m < n)) old = 1#8 := by
  rw [decide_eq_true h]; cases mode <;> rfl

theorem aluFlag_of_le (mode : FlagMode) (old : Byte) {m n : Nat} (h : n ≤ m) :
    aluFlag mode (decide (m < n)) old = if mode = .symmetric then 0#8 else old := by
  rw [decide_eq_false (Nat.not_lt.2 h)]; cases mode <;> rfl

/-- A cycle whose effect is an addition or a subtraction: the conditions of both flags compare two naturals, `m < n`,
and `r` is the value of the result. -/
theorem exec_of_aluFlag {i : Instr} {token : Token} {s : State} {x : Reg} {b : Byte} {m n r : Nat}
    (hexec : exec i s = .next { (s.dispatched (encode i)).setFlagThenReg
      (aluFlag s.config.flagMode (decide (m < n)) (s.reg 15)) x b with lastClass := token })
    (hresult : b.toNat = r) :
    ∃ t, exec i s = .next t ∧ Sequential i token s t ∧ (t.reg x).toNat = r ∧
      (x ≠ 15 → m < n → t.reg 15 = 1#8) ∧
      (x ≠ 15 → n ≤ m → t.reg 15 = if s.config.flagMode = .symmetric then 0#8 else s.reg 15) ∧
      RegisterFrame s t [x, 15] := by
  obtain ⟨t, ht, hseq, hx, hflag, hframe⟩ := exec_of_setFlagThenReg hexec
  exact ⟨t, ht, hseq, hx ▸ hresult, fun hne hlt => (hflag hne).trans (aluFlag_of_lt _ _ hlt),
    fun hne hle => (hflag hne).trans (aluFlag_of_le _ _ hle), hframe⟩

/-- Settles O40: addition of bytes is modulo 256, and the flag's condition is the carry of the unbounded sum. -/
theorem addWithCarryFlag : Obligations.AddWithCarryFlag := fun x y s =>
  exec_of_aluFlag (exec_addReg x y s) (BitVec.toNat_add (s.reg x) (s.reg y))

/-- The difference modulo 256 with the minuend first, as R157 and R159 write it. -/
theorem toNat_byte_sub (a b : Byte) : (a - b).toNat = (256 + a.toNat - b.toNat) % 256 := by
  rw [BitVec.toNat_sub, Nat.sub_add_comm b.isLt.le]

/-- Settles O41: 8xy7 is 8xy5 with the operands exchanged, in the difference and in the comparison. -/
theorem subtractWithStrictFlag : Obligations.SubtractWithStrictFlag := fun x y s =>
  ⟨exec_of_aluFlag (exec_sub x y s) (toNat_byte_sub (s.reg x) (s.reg y)),
    exec_of_aluFlag (exec_subn x y s) (toNat_byte_sub (s.reg y) (s.reg x))⟩

/-! The shifts and their flags (R158, R160). -/

theorem shrFlag_toNat (a : Byte) : (shrFlag a).toNat = a.toNat % 2 := by
  rw [shrFlag, BitVec.toNat_and]; exact Nat.and_one_is_mod _

theorem shlFlag_nonZero_toNat (a : Byte) : (shlFlag .nonZero a).toNat = if a.toNat = 0 then 0 else 1 := by
  by_cases h : a = 0#8
  · subst h; rfl
  · have hpos : a.toNat ≠ 0 := fun h0 => h (BitVec.eq_of_toNat_eq h0)
    rw [if_neg hpos, shlFlag, flagByte, if_pos (decide_eq_true h)]; rfl

theorem shlFlag_highBit_toNat (a : Byte) : (shlFlag .highBit a).toNat = a.toNat / 128 := by
  rw [shlFlag, BitVec.toNat_ushiftRight, Nat.shiftRight_eq_div_pow]

/-- Settles O42: a shift by one halves or doubles, and its flag is read from `V[x]` before the write. -/
theorem shiftsInPlace : Obligations.ShiftsInPlace := by
  intro x y s
  have hhalf : (s.reg x >>> 1).toNat = (s.reg x).toNat / 2 := BitVec.toNat_ushiftRight ..
  have hdouble : (s.reg x <<< 1).toNat = (s.reg x).toNat * 2 % 256 := by
    rw [BitVec.toNat_shiftLeft, Nat.shiftLeft_eq]
  obtain ⟨tr, hrExec, hrSeq, hr, hrFlag, hrFrame⟩ := exec_of_setFlagThenReg (exec_shr x y s)
  obtain ⟨tl, hlExec, hlSeq, hl, hlFlag, hlFrame⟩ := exec_of_setFlagThenReg (exec_shl x y s)
  refine ⟨⟨tr, hrExec, hrSeq, hr ▸ hhalf, fun hne => hrFlag hne ▸ shrFlag_toNat (s.reg x), hrFrame⟩,
    tl, hlExec, hlSeq, hl ▸ hdouble, fun hne hmode => ?nonZero, fun hne hmode => ?highBit, hlFrame⟩
  case nonZero => rw [hlFlag hne, State.dispatched_config, hmode]; exact shlFlag_nonZero_toNat (s.reg x)
  case highBit => rw [hlFlag hne, State.dispatched_config, hmode]; exact shlFlag_highBit_toNat (s.reg x)

end Sys2Proof.Machine
end

section
/-! SUPPORT. Dxyn (spec/45_draw.md): the cells a blit flips, the collision flag, and the sprite outside memory. -/

namespace Sys2Proof.Machine

/-! The cells a sprite covers (R171, R172). -/

theorem eq_spriteRow_iff {row : Fin 32} {vy : Byte} {r : Nat} :
    row = spriteRow vy r ↔ row.val = (vy.toNat + r) % 32 := Fin.ext_iff

theorem eq_spriteCol_iff {col : Fin 64} {vx : Byte} {b : Nat} :
    col = spriteCol vx b ↔ col.val = (vx.toNat + (7 - b)) % 64 := Fin.ext_iff

theorem State.length_sprite (s : State) (n : Fin 16) : (s.sprite n).length = n.val :=
  Memory.length_readList _ _ _

theorem State.getElem_sprite (s : State) (n : Fin 16) {r : Nat} (h : r < (s.sprite n).length) :
    (s.sprite n)[r] = s.mem.read (s.effAddr r) :=
  Memory.getElem_readList _ _ _ _ h

/-- `Covered` in the terms of the blit: the sprite's bytes, and the row and the column of each bit. -/
theorem covered_iff {s : State} {x y : Reg} {n : Fin 16} {row : Fin 32} {col : Fin 64} :
    Covered s x y n row col ↔
      ∃ r b, ∃ h : r < (s.sprite n).length, b < 8 ∧ (s.sprite n)[r].getLsbD b = true ∧
        row = spriteRow (s.reg y) r ∧ col = spriteCol (s.reg x) b := by
  simp only [Covered, State.getElem_sprite, State.length_sprite, eq_spriteRow_iff, eq_spriteCol_iff, exists_prop]

/-! What a blit does (R172 to R174). -/

/-- The cells a blit changes are those its sprite covers. -/
theorem State.cell_blit_ne_iff (d : State) (x y : Reg) (n : Fin 16) (row : Fin 32) (col : Fin 64) :
    (d.blit x y n).cell row col ≠ d.cell row col ↔ Covered d x y n row col := by
  have hlen : (d.sprite n).length ≤ 32 := by rw [State.length_sprite]; omega
  have hflips := blitRows_flips (d.reg x) (d.reg y) (d.sprite n) 0 hlen ⟨d.fb, false⟩ row col
  simp only [Nat.zero_add] at hflips
  exact hflips.trans covered_iff.symm

theorem State.cell_blit_of_covered {d : State} {x y : Reg} {n : Fin 16} {row : Fin 32} {col : Fin 64}
    (h : Covered d x y n row col) : (d.blit x y n).cell row col = !(d.cell row col) :=
  Bool.eq_not_of_ne ((d.cell_blit_ne_iff x y n row col).2 h)

theorem State.cell_blit_of_not_covered {d : State} {x y : Reg} {n : Fin 16} {row : Fin 32} {col : Fin 64}
    (h : ¬ Covered d x y n row col) : (d.blit x y n).cell row col = d.cell row col :=
  not_not.1 (mt (d.cell_blit_ne_iff x y n row col).1 h)

theorem flagByte_eq_one_iff (c : Bool) : flagByte c = 1#8 ↔ c = true := by
  cases c <;> decide

/-- `VF` after a blit is the flag of a collision: some covered cell was set. -/
theorem State.reg_blit_flag (d : State) (x y : Reg) (n : Fin 16) :
    ∃ hit, (d.blit x y n).reg 15 = flagByte hit ∧
      (hit = true ↔ ∃ row col, Covered d x y n row col ∧ d.cell row col = true) := by
  have hlen : (d.sprite n).length ≤ 32 := by rw [State.length_sprite]; omega
  refine ⟨_, State.reg_setReg_same d 15 _, ?_⟩
  rw [blitRows_hit _ _ _ _ hlen]
  simp only [Nat.zero_add, Bool.false_eq_true, false_or]
  constructor
  · rintro ⟨r, b, hr, hb, hbit, hset⟩
    exact ⟨_, _, covered_iff.2 ⟨r, b, hr, hb, hbit, rfl, rfl⟩, hset⟩
  · rintro ⟨row, col, hcov, hset⟩
    obtain ⟨r, b, hr, hb, hbit, rfl, rfl⟩ := covered_iff.1 hcov
    exact ⟨r, b, hr, hb, hbit, hset⟩

/-! The cycle of Dxyn: the common part writes nothing the blit reads. -/

theorem raisedCause_drw {s : State} (x y : Reg) {n : Fin 16} (h : n.val = 0 ∨ s.i.toNat + n.val - 1 ≤ 0xFFF) :
    raisedCause (.drw x y n) s = none :=
  (rangeFault_none_iff (s.effAddr 0) n.val).2 (by simp only [State.effAddr_eq, memSize]; omega)

theorem State.cell_cycled_drw_of_covered {s : State} {x y : Reg} {n : Fin 16} {row : Fin 32} {col : Fin 64}
    (h : Covered s x y n row col) : (s.cycled (.drw x y n)).cell row col = !(s.cell row col) :=
  State.cell_blit_of_covered (d := s.dispatched _) h

theorem State.cell_cycled_drw_of_not_covered {s : State} {x y : Reg} {n : Fin 16} {row : Fin 32} {col : Fin 64}
    (h : ¬ Covered s x y n row col) : (s.cycled (.drw x y n)).cell row col = s.cell row col :=
  State.cell_blit_of_not_covered (d := s.dispatched _) h

theorem State.reg_cycled_drw_flag (s : State) (x y : Reg) (n : Fin 16) :
    ∃ hit, (s.cycled (.drw x y n)).reg 15 = flagByte hit ∧
      (hit = true ↔ ∃ row col, Covered s x y n row col ∧ s.cell row col = true) :=
  (s.dispatched _).reg_blit_flag x y n

/-- Settles O43: the cycle completes because its range lies in memory, and its effect is the blit. -/
theorem drawFlipsTheCoveredCells : Obligations.DrawFlipsTheCoveredCells := by
  intro x y n s hfit
  obtain ⟨hit, hflag, hhit⟩ := s.reg_cycled_drw_flag x y n
  refine ⟨s.cycled (.drw x y n), exec_eq_cycled (raisedCause_drw x y hfit),
    ⟨s.cycled_reports (.drw x y n), State.cycled_advances not_false, State.cycled_ticks nofun nofun⟩,
    fun _ _ => State.cell_cycled_drw_of_covered, fun _ _ => State.cell_cycled_drw_of_not_covered,
    fun hset => hflag.trans ?collision, fun hclear => hflag.trans ?noCollision,
    fun _ hr => State.reg_blit_other _ x y n (List.ne_of_not_mem_cons hr), rfl, ⟨rfl, rfl⟩, fun _ => rfl⟩
  case collision => rw [hhit.2 hset]; rfl
  case noCollision => rw [Bool.eq_false_iff.2 (mt hhit.1 hclear)]; rfl

/-! Two draws of one sprite (R175). -/

/-- What a sprite covers depends on registers, `I` and memory alone. -/
theorem covered_congr {s w : State} (hv : w.v = s.v) (hi : w.i = s.i) (hmem : w.mem = s.mem) {x y : Reg}
    {n : Fin 16} {row : Fin 32} {col : Fin 64} : Covered w x y n row col ↔ Covered s x y n row col := by
  simp only [Covered, State.reg_eq, State.effAddr_eq, hv, hi, hmem]

/-- Settles O44: with the registers put back the second draw covers the cells of the first, so it flips each of
them back, and it finds set those the first found clear. -/
theorem drawTwiceRestoresTheFramebuffer : Obligations.DrawTwiceRestoresTheFramebuffer := by
  intro x y n s t _ hexec hcomplete
  obtain ⟨c, -, rfl⟩ | ⟨hcause, ht⟩ := exec_next hexec
  · simp at hcomplete
  obtain rfl : t = s.cycled (.drw x y n) := ht
  generalize hw : ({ s.cycled (.drw x y n) with v := s.v } : State) = w
  have hcov {row col} : Covered w x y n row col ↔ Covered s x y n row col := by
    subst hw; exact covered_congr rfl rfl rfl
  have hcell (row col) : w.cell row col = (s.cycled (.drw x y n)).cell row col := by subst hw; rfl
  have hagain : raisedCause (.drw x y n) w = none := by subst hw; exact hcause
  obtain ⟨hit, hflag, hhit⟩ := w.reg_cycled_drw_flag x y n
  refine ⟨w.cycled (.drw x y n), exec_eq_cycled hagain, fun row col => ?restored, ?collision⟩
  case restored =>
    by_cases h : Covered s x y n row col
    · rw [State.cell_cycled_drw_of_covered (hcov.2 h), hcell, State.cell_cycled_drw_of_covered h, Bool.not_not]
    · rw [State.cell_cycled_drw_of_not_covered (mt hcov.1 h), hcell, State.cell_cycled_drw_of_not_covered h]
  case collision =>
    rw [hflag, flagByte_eq_one_iff, hhit]
    refine exists₂_congr fun row col => (and_congr_left' hcov).trans (and_congr_right fun h => ?_)
    rw [hcell, State.cell_cycled_drw_of_covered h, Bool.not_eq_true']

/-- Settles O45: the range check names the lowest address above 0xFFF, and the fault's record is all that is
written. -/
theorem drawOutOfRangeFaults : Obligations.DrawOutOfRangeFaults := by
  intro x y n s hpos hout
  have hrange : 0 < n.val ∧ memSize < s.effAddr 0 + n.val := by simp only [State.effAddr_eq, memSize]; omega
  exact exec_eq_raise (i := .drw x y n) ((rangeFault_some_iff _ _ _).2 ⟨hrange, rfl⟩)

end Sys2Proof.Machine
end

section
/-! SUPPORT. The keypad latch (spec/46_keys.md): no step and no host operation but the key events lets `Keys` reach
another field, and the recognised words that would read it have no effect of their own. -/

namespace Sys2Proof.Machine

/-! The operations over registers commute with replacing the key flags. -/

theorem State.setRegsFrom_withKeys (s : State) (keys : Vector Bool 16) (k : Nat) (bytes : List Byte) :
    (s.withKeys keys).setRegsFrom k bytes = (s.setRegsFrom k bytes).withKeys keys := by
  induction bytes generalizing s k with
  | nil => rfl
  | cons b rest ih =>
    unfold State.setRegsFrom
    split
    · exact ih (s.setReg _ b) (k + 1)
    · exact ih s (k + 1)

theorem State.skipIf_withKeys (s : State) (keys : Vector Bool 16) (c : Bool) :
    (s.withKeys keys).skipIf c = (s.skipIf c).withKeys keys := by
  cases c <;> rfl

/-! A cycle neither reads nor writes `Keys` (R183). -/

@[simp] theorem raisedCause_withKeys (i : Instr) (s : State) (keys : Vector Bool 16) :
    raisedCause i (s.withKeys keys) = raisedCause i s := by
  cases i <;> rfl

/-- Only the effects that branch, on a condition or on a list of bytes, do not compute. -/
theorem ownEffect_withKeys (i : Instr) (rnd : Byte) (d : State) (keys : Vector Bool 16) :
    ownEffect i rnd (d.withKeys keys) = (ownEffect i rnd d).withKeys keys := by
  cases i with
  | seImm | sneImm | seReg | sneReg => exact d.skipIf_withKeys keys _
  | load => exact d.setRegsFrom_withKeys keys 0 _
  | _ => rfl

theorem State.cycled_withKeys (s : State) (i : Instr) (keys : Vector Bool 16) :
    (s.withKeys keys).cycled i = (s.cycled i).withKeys keys :=
  congrArg (fun t : State => { t with lastClass := reportedToken i s.pc.toNat })
    (ownEffect_withKeys i s.rnd (s.dispatched (encode i)) keys)

theorem exec_withKeys (i : Instr) (s : State) (keys : Vector Bool 16) :
    exec i (s.withKeys keys) = Result.withKeys (exec i s) keys := by
  have hcause := raisedCause_withKeys i s keys
  cases h : raisedCause i s with
  | some c => rw [exec_eq_raise h, exec_eq_raise (hcause.trans h)]; rfl
  | none => rw [exec_eq_cycled h, exec_eq_cycled (hcause.trans h), State.cycled_withKeys]; rfl

theorem State.fetch_withKeys (s : State) (keys : Vector Bool 16) : (s.withKeys keys).fetch = s.fetch :=
  State.fetch_congr rfl rfl

/-- Settles O24: a stop and a failed fetch do not look at `Keys`, and every instruction's cycle commutes with
replacing them. -/
theorem keysNeverInfluenceAStep : Obligations.KeysNeverInfluenceAStep := by
  intro s keys
  have hfetch := s.fetch_withKeys keys
  cases hfault : s.fault with
  | some r => rw [step_of_faulted hfault, step_of_faulted (s := s.withKeys keys) hfault]; rfl
  | none =>
    cases h : s.fetch with
    | error c =>
      rw [step_of_fetch_error hfault h, step_of_fetch_error (s := s.withKeys keys) hfault (hfetch.trans h)]; rfl
    | ok op =>
      rw [step_of_fetch hfault h, step_of_fetch (s := s.withKeys keys) hfault (hfetch.trans h), exec_withKeys]

/-! Runs of host operations (70_reset_and_hazards.md R249, R252). -/

theorem State.hostStep_withKeys (s : State) (rnd : Byte) (keys : Vector Bool 16) :
    (s.withKeys keys).hostStep rnd = (s.hostStep rnd).withKeys keys := by
  have hstep : step { s.withKeys keys with rnd := rnd } = Result.withKeys (step { s with rnd := rnd }) keys :=
    keysNeverInfluenceAStep { s with rnd := rnd } keys
  rw [State.hostStep, State.hostStep, hstep]
  cases step { s with rnd := rnd } <;> rfl

theorem State.load_withKeys (s : State) (image : List Byte) (keys : Vector Bool 16) :
    ((s.withKeys keys).load image).1 = (s.load image).1.withKeys keys := by
  unfold State.load; split <;> rfl

/-- Up to `Keys`, a host operation does not depend on `Keys`; `Reset` clears them, so the flags are replaced after the
operation too. -/
theorem State.perform_withKeys (s : State) (op : HostOp) (keys keys' : Vector Bool 16) :
    ((s.withKeys keys).perform op).1.withKeys keys' = (s.perform op).1.withKeys keys' := by
  cases op with
  | reset | keyPress | keyRelease => rfl
  | load image =>
    show ((s.withKeys keys).load image).1.withKeys keys' = (s.load image).1.withKeys keys'
    rw [State.load_withKeys]; rfl
  | step rnd =>
    show ((s.withKeys keys).hostStep rnd).withKeys keys' = (s.hostStep rnd).withKeys keys'
    rw [State.hostStep_withKeys]; rfl

theorem State.perform_keyEvent_withKeys {op : HostOp} (h : op.isKeyEvent = true) (s : State)
    (keys : Vector Bool 16) : (s.perform op).1.withKeys keys = s.withKeys keys := by
  cases op with
  | keyPress | keyRelease => rfl
  | reset | load | step => cases h

/-- Up to `Keys`, a run does not depend on the `Keys` it begins with. -/
theorem State.performAll_withKeys (s : State) (ops : List HostOp) (keys : Vector Bool 16) :
    ((s.withKeys keys).performAll ops).withKeys keys = (s.performAll ops).withKeys keys := by
  induction ops generalizing s with
  | nil => rfl
  | cons op rest ih =>
    show (((s.withKeys keys).perform op).1.performAll rest).withKeys keys =
      ((s.perform op).1.performAll rest).withKeys keys
    rw [← ih, State.perform_withKeys, ih]

/-- Settles O25, by induction on the operations: a key event is undone up to `Keys`, which the rest of the run does
not depend on. -/
theorem keyEventsCommuteWithRuns : Obligations.KeyEventsCommuteWithRuns := by
  intro s ops keys
  induction ops generalizing s with
  | nil => rfl
  | cons op rest ih =>
    refine (ih (s.perform op).1).trans ?_
    cases hop : op.isKeyEvent with
    | false => rw [List.filter_cons_of_pos (by simp [hop])]; rfl
    | true =>
      rw [List.filter_cons_of_neg (by simp [hop]), ← State.performAll_withKeys,
        State.perform_keyEvent_withKeys hop, State.performAll_withKeys]

/-- Settles O53: each of the four reports `UNKNOWN`, so its cycle is the common part alone. -/
theorem unimplementedWordsDoNothing : Obligations.UnimplementedWordsDoNothing := by
  intro x s i hi
  have htoken : reportedToken i s.pc.toNat = .unknown := by
    simp only [List.mem_cons, List.not_mem_nil, or_false] at hi
    obtain rfl | rfl | rfl | rfl := hi <;> rfl
  exact exec_of_unknown htoken

end Sys2Proof.Machine
end

section
/-! SUPPORT. The instructions Fx07, Fx15, Fx18, Fx1E, Fx33, Fx55 and Fx65 (spec/47_misc.md): the timers, the addition
to `I`, and the bytes at `I` that are stored, loaded, or out of range. -/

namespace Sys2Proof.Machine

/-! The timers (R190 to R192). -/

/-- Settles O46: the effect reads `TD` on the dispatched state, where the timer has ticked. -/
theorem readDelayTimer : Obligations.ReadDelayTimer := by
  intro x s
  obtain ⟨t, hexec, hseq, hx, hframe⟩ := exec_of_setReg (exec_ldVxDt x s)
  exact ⟨t, hexec, hseq, (congrArg BitVec.toNat hx).trans (timerTick_toNat s.td), hframe⟩

/-- A completed cycle whose effect is a write of timers. -/
theorem State.dispatched_timers_registerFrame (s : State) (op : Word) (td ts : Byte) (token : Token) :
    RegisterFrame s { s.dispatched op with td := td, ts := ts, lastClass := token } [] :=
  ⟨fun _ _ => rfl, rfl, ⟨rfl, rfl⟩, fun _ => rfl, fun _ _ => rfl⟩

/-- Settles O47: the effect writes one timer after the common part has decremented both. -/
theorem writeTimers : Obligations.WriteTimers := fun x s =>
  ⟨⟨s.cycled (.ldDtVx x), exec_eq_cycled rfl, s.cycled_reports (.ldDtVx x), State.cycled_advances not_false, rfl,
      State.cycled_ts nofun, s.dispatched_timers_registerFrame _ _ _ _⟩,
    ⟨s.cycled (.ldStVx x), exec_eq_cycled rfl, s.cycled_reports (.ldStVx x), State.cycled_advances not_false, rfl,
      State.cycled_td nofun, s.dispatched_timers_registerFrame _ _ _ _⟩⟩

/-! The flag of Fx1E under `FX1E_VF_ELSE` (R193). -/

theorem addIFlag_of_lt (mode : Fx1eVfElse) (old : Byte) {sum : Nat} (h : 0xFFF < sum) :
    addIFlag mode sum old = 1#8 :=
  if_pos h

theorem addIFlag_of_le (mode : Fx1eVfElse) (old : Byte) {sum : Nat} (h : sum ≤ 0xFFF) :
    addIFlag mode sum old = if mode = .unchanged then old else 0#8 := by
  cases mode <;> exact if_neg (Nat.not_lt.2 h)

/-- The flag is the only general register Fx1E writes. -/
theorem State.reg_cycled_addI (s : State) (x q : Reg) :
    (s.cycled (.addI x)).reg q =
      if q = regVF then addIFlag s.config.fx1eVfElse (s.i.toNat + (s.reg x).toNat) (s.reg regVF) else s.reg q :=
  State.reg_setReg (s.dispatched _) regVF q _

/-- Settles O48: the sum and the flag come from the same unbounded sum, and `I` keeps its low 16 bits. -/
theorem addToAddressRegister : Obligations.AddToAddressRegister := by
  intro x s
  have hflag := (s.reg_cycled_addI x 15).trans (if_pos rfl)
  exact ⟨s.cycled (.addI x), exec_eq_cycled rfl,
    ⟨s.cycled_reports (.addI x), State.cycled_advances not_false, State.cycled_ticks nofun nofun⟩,
    BitVec.toNat_ofNat _ 16, fun hlt => hflag.trans (addIFlag_of_lt _ _ hlt),
    fun hle => hflag.trans (addIFlag_of_le _ _ hle),
    fun q hq => (s.reg_cycled_addI x q).trans (if_neg (List.ne_of_not_mem_cons hq)),
    ⟨rfl, rfl⟩, fun _ => rfl, fun _ _ => rfl⟩

/-! A cycle that stores consecutive bytes at `I` (R195, R196). -/

/-- A cycle whose effect is a store at `I` keeps every byte outside those stored, and every field but memory. -/
theorem State.cycled_storeBytes_frame {s : State} {i : Instr} {bytes : List Byte} {count : Nat}
    (heffect : ownEffect i s.rnd (s.dispatched (encode i)) =
      (s.dispatched (encode i)).storeBytes (s.effAddr 0) bytes) (hlen : bytes.length = count) :
    MemKeptOutside s (s.cycled i) (s.effAddr 0) count ∧
      RegsKeptBut s (s.cycled i) [] ∧ (s.cycled i).i = s.i ∧ StackKept s (s.cycled i) ∧ FbKept s (s.cycled i) := by
  rw [State.cycled, heffect]
  exact ⟨fun _ ha => Memory.read_writeList_outside bytes s.mem _ (hlen ▸ ha), fun _ _ => rfl, rfl, ⟨rfl, rfl⟩,
    fun _ _ => rfl⟩

/-- Settles O49: the three bytes lie in memory, so the cycle stores the digits, and each digit fits a byte. -/
theorem bcdStoresThreeDigits : Obligations.BcdStoresThreeDigits := by
  intro x s hwf hle
  have hfit : s.i.toNat + 3 ≤ memSize := by simp only [memSize]; omega
  have hread (k : Nat) (hk : k < 3) :
      (s.cycled (.bcd x)).mem.read (s.effAddr k) = (decimalDigits (s.reg x))[k]'hk :=
    Memory.read_writeList_inside _ hwf hfit hk
  have hbyte := (s.reg x).isLt
  refine ⟨s.cycled (.bcd x), exec_eq_cycled (State.dataFault_none_of_le hfit),
    ⟨s.cycled_reports (.bcd x), State.cycled_advances not_false, State.cycled_ticks nofun nofun⟩,
    ?hundreds, ?tens, ?units, State.cycled_storeBytes_frame rfl rfl⟩
  case hundreds => rw [hread 0 (by decide)]; exact Nat.mod_eq_of_lt (by omega)
  case tens => rw [hread 1 (by decide)]; exact Nat.mod_eq_of_lt (by omega)
  case units => rw [hread 2 (by decide)]; exact Nat.mod_eq_of_lt (by omega)

theorem add_regCount_le_memSize {a : Nat} {x : Reg} (h : a + x.val ≤ 0xFFF) : a + regCount x ≤ memSize :=
  Nat.succ_le_succ h

/-- Settles O50: the bytes lie in memory, so the cycle stores the registers up to `V[x]` in order. -/
theorem storeRegisters : Obligations.StoreRegisters := by
  intro x s hwf hle
  have hfit := add_regCount_le_memSize hle
  exact ⟨s.cycled (.store x), exec_eq_cycled (State.dataFault_none_of_le hfit),
    ⟨s.cycled_reports (.store x), State.cycled_advances not_false, State.cycled_ticks nofun nofun⟩,
    fun _ hr => State.read_storeBytes_firstRegs (d := s.dispatched _) hwf hfit hr,
    State.cycled_storeBytes_frame rfl (s.length_firstRegs x)⟩

/-! The registers Fx65 loads (R197). -/

theorem State.reg_setRegsFrom_readList (s : State) (m : Memory) (base : Nat) (x q : Reg) :
    (s.setRegsFrom 0 (m.readList base (regCount x))).reg q = if q ≤ x then m.read (base + q.val) else s.reg q := by
  have hloaded : (0 ≤ q.val ∧ q.val - 0 < (m.readList base (regCount x)).length) ↔ q ≤ x := by
    rw [Memory.length_readList, Fin.le_def, regCount]; omega
  rw [State.reg_setRegsFrom]
  split <;> rename_i h
  · rw [if_pos (hloaded.1 h), Memory.getElem_readList, Nat.sub_zero]
  · rw [if_neg (mt hloaded.2 h)]

theorem State.reg_cycled_load (s : State) (x q : Reg) :
    (s.cycled (.load x)).reg q = if q ≤ x then s.mem.read (s.effAddr q.val) else s.reg q :=
  (s.dispatched _).reg_setRegsFrom_readList s.mem (s.effAddr 0) x q

/-- Settles O51: the bytes lie in memory, so the cycle loads the registers up to `V[x]` and no other field. -/
theorem loadRegisters : Obligations.LoadRegisters := by
  intro x s hle
  have hcause : raisedCause (.load x) s = none := State.dataFault_none_of_le (add_regCount_le_memSize hle)
  exact ⟨s.cycled (.load x), exec_eq_cycled hcause,
    ⟨s.cycled_reports (.load x), State.cycled_advances not_false, State.cycled_ticks nofun nofun⟩,
    fun r hr => (s.reg_cycled_load x r).trans (if_pos hr),
    fun r hr => (s.reg_cycled_load x r).trans (if_neg (not_le.2 hr)),
    State.setRegsFrom_i .., ⟨State.setRegsFrom_sp .., State.setRegsFrom_stack ..⟩,
    fun a => congrArg (Memory.read · a) (State.setRegsFrom_mem ..),
    fun row col => congrArg (Framebuffer.cell · row col) (State.setRegsFrom_fb ..)⟩

/-! Accesses that leave memory (60_exceptions.md R214). -/

theorem State.dataFault_of_lt {s : State} {k : Nat} (h : 0xFFF < s.i.toNat + k) :
    s.dataFault (k + 1) = some (.addressOutOfRange (max s.i.toNat 0x1000)) :=
  (rangeFault_some_iff _ _ _).2 ⟨⟨Nat.succ_pos k, Nat.succ_lt_succ h⟩, rfl⟩

/-- Settles O52: the range check names the lowest address above 0xFFF, and the fault's record is all that is
written. -/
theorem memoryInstructionsOutOfRangeFault : Obligations.MemoryInstructionsOutOfRangeFault := fun x _ =>
  ⟨fun h => exec_eq_raise (i := .bcd x) (State.dataFault_of_lt h),
    fun h => exec_eq_raise (i := .store x) (State.dataFault_of_lt h),
    fun h => exec_eq_raise (i := .load x) (State.dataFault_of_lt h)⟩

end Sys2Proof.Machine
end

section
/-! SUPPORT. Faults (spec/60_exceptions.md): the cause an instruction raises, what a cycle that raises one leaves, and
the cycles that raise none. -/

namespace Sys2Proof.Machine

/-! What a step that records a fault has done (R212). -/

/-- A completed cycle keeps the fault field, so a fault recorded is that of the fetch or of the instruction. -/
theorem step_faulted {s t : State} {r : FaultRecord} (hstep : step s = .next t) (hr : t.fault = some r) :
    (∃ c, s.fetch = .error c ∧ t = s.raise c none) ∨
      ∃ op c, s.fetch = .ok op ∧ raisedCause (decode op) s = some c ∧ t = s.raise c (some op) := by
  obtain ⟨hfault, ⟨c, hfetch, ht⟩ | ⟨op, hfetch, hexec⟩⟩ := step_next hstep
  · exact .inl ⟨c, hfetch, ht⟩
  refine .inr ⟨op, ?_⟩
  obtain ⟨c, hcause, ht⟩ | ⟨-, rfl⟩ := exec_next hexec
  · exact ⟨c, hfetch, hcause, by rw [ht, encode_decode]⟩
  · have hkept := (s.cycled_reports (decode op)).fault.trans hfault
    exact absurd (hr.symm.trans hkept) nofun

/-- Settles O12: the state recorded in is the one before the cycle, by the fetch or by the instruction fetched. -/
theorem faultsCommitNothing : Obligations.FaultsCommitNothing := by
  intro s t r _ hstep hr
  obtain ⟨c, hfetch, rfl⟩ | ⟨op, c, hfetch, -, rfl⟩ := step_faulted hstep hr
  · obtain rfl := Option.some.inj hr
    exact ⟨rfl, rfl, fun _ hok => absurd (hfetch.symm.trans hok) nofun,
      fun _ herror => ⟨rfl, Except.error.inj (hfetch.symm.trans herror)⟩⟩
  · obtain rfl := Option.some.inj hr
    exact ⟨rfl, rfl, fun _ hok => congrArg some (Except.ok.inj (hfetch.symm.trans hok)),
      fun _ herror => absurd (hfetch.symm.trans herror) nofun⟩

/-! Which causes an instruction raises (R214 to R216). -/

theorem State.dataFault_some_iff (s : State) (k : Nat) (c : FaultCause) :
    s.dataFault (k + 1) = some c ↔ 0xFFF < s.i.toNat + k ∧ c = .addressOutOfRange (max s.i.toNat 0x1000) := by
  refine (rangeFault_some_iff (s.effAddr 0) (k + 1) c).trans (and_congr_left' ?_)
  simp only [State.effAddr_eq, memSize]
  omega

/-- Only Dxyn may access no byte at all, and then it raises nothing (45_draw.md R171). -/
theorem raisedCause_drw_some_iff (x y : Reg) (n : Fin 16) (s : State) (c : FaultCause) :
    raisedCause (.drw x y n) s = some c ↔
      (0 < n.val ∧ 0xFFF < s.i.toNat + n.val - 1) ∧ c = .addressOutOfRange (max s.i.toNat 0x1000) := by
  refine (rangeFault_some_iff (s.effAddr 0) n.val c).trans (and_congr_left' ?_)
  simp only [State.effAddr_eq, memSize]
  omega

theorem raisedCause_ret_some_iff (s : State) (c : FaultCause) :
    raisedCause .ret s = some c ↔ s.sp.toNat = 0 ∧ c = .stackUnderflow := by
  simp [raisedCause, ← BitVec.toNat_inj, eq_comm]

theorem raisedCause_call_some_iff (nnn : Addr12) (s : State) (c : FaultCause) :
    raisedCause (.call nnn) s = some c ↔ s.config.stackDepth ≤ s.sp.toNat ∧ c = .stackOverflow := by
  simp [raisedCause, eq_comm]

/-- The instructions that access memory at `I`, with a byte above 0xFFF among those accessed (R214). -/
def accessesOutOfRange (i : Instr) (s : State) : Prop :=
  (∃ x y n, i = .drw x y n ∧ 0 < n.val ∧ 0xFFF < s.i.toNat + n.val - 1) ∨
  (∃ x, i = .bcd x ∧ 0xFFF < s.i.toNat + 2) ∨
  (∃ x, i = .store x ∧ 0xFFF < s.i.toNat + x.val) ∨
  (∃ x, i = .load x ∧ 0xFFF < s.i.toNat + x.val)

/-- Every cause an instruction can raise, each with the instructions that raise it. -/
theorem raisedCause_some_iff (i : Instr) (s : State) (c : FaultCause) :
    raisedCause i s = some c ↔
      (((∃ nnn, i = .call nnn) ∧ s.config.stackDepth ≤ s.sp.toNat) ∧ c = .stackOverflow) ∨
      ((i = .ret ∧ s.sp.toNat = 0) ∧ c = .stackUnderflow) ∨
      (accessesOutOfRange i s ∧ c = .addressOutOfRange (max s.i.toNat 0x1000)) := by
  cases i with
  | ret => simp [raisedCause_ret_some_iff, accessesOutOfRange]
  | call nnn => simp [raisedCause_call_some_iff, accessesOutOfRange]
  | drw x y n => simp [raisedCause_drw_some_iff, accessesOutOfRange]
  | bcd x => simpa [raisedCause, accessesOutOfRange] using s.dataFault_some_iff 2 c
  | store x | load x => simpa [raisedCause, regCount, accessesOutOfRange] using s.dataFault_some_iff x.val c
  | _ => simp [raisedCause, accessesOutOfRange]

theorem step_records_cause_iff {s t : State} {op : Word} (hfetch : s.fetch = .ok op) (hstep : step s = .next t)
    (c : FaultCause) : (∃ r, t.fault = some r ∧ r.cause = c) ↔ raisedCause (decode op) s = some c := by
  constructor
  · rintro ⟨r, hr, rfl⟩
    obtain ⟨c, herror, -⟩ | ⟨op', c, hok, hcause, rfl⟩ := step_faulted hstep hr
    · exact absurd (hfetch.symm.trans herror) nofun
    · obtain rfl := Except.ok.inj (hfetch.symm.trans hok)
      obtain rfl := Option.some.inj hr
      exact hcause
  · intro hcause
    rw [step_of_fetch (step_next hstep).1 hfetch, exec_eq_raise hcause] at hstep
    obtain rfl := Host.Outcome.next.inj hstep
    exact ⟨_, rfl, rfl⟩

/-- Settles O13: the cause recorded is the one the instruction raises, and the three kinds of cause differ. -/
theorem faultConditions : Obligations.FaultConditions := by
  intro s t op _ hfetch hstep
  simp only [step_records_cause_iff hfetch hstep, raisedCause_some_iff]
  refine ⟨?overflow, ?underflow, fun addr => ?range⟩
  case overflow => simp
  case underflow => simp
  case range => simp [accessesOutOfRange, and_comm]

/-- Settles O29: `SP = 0` is the condition of the underflow. -/
theorem retOnEmptyStackFaults : Obligations.RetOnEmptyStackFaults := fun s hsp =>
  exec_eq_raise (i := .ret) ((raisedCause_ret_some_iff s _).2 ⟨hsp, rfl⟩)

/-- Settles O32: `SP` at the depth or above is the condition of the overflow. -/
theorem callBeyondCapacityFaults : Obligations.CallBeyondCapacityFaults := fun nnn s hfull =>
  exec_eq_raise (i := .call nnn) ((raisedCause_call_some_iff nnn s _).2 ⟨hfull, rfl⟩)

end Sys2Proof.Machine
end

section
/-! SUPPORT. The host's operations and what they promise of a run (spec/70_reset_and_hazards.md): power-on, `Reset`,
`Load`, the key events, and that no step waits. -/

namespace Sys2Proof.Machine

/-! Every step completes (R259). -/

/-- An instruction raises its fault or completes its cycle; it refuses nothing (40_cycle_and_dispatch.md R111). -/
theorem exec_answers_next (i : Instr) (s : State) : ∃ t, exec i s = .next t := by
  cases h : raisedCause i s with
  | none => exact ⟨_, exec_eq_cycled h⟩
  | some c => exact ⟨_, exec_eq_raise h⟩

/-- Settles O11: the fetch faults, or the instruction fetched answers a next state. -/
theorem unfaultedStepCompletes : Obligations.UnfaultedStepCompletes := by
  intro s hfault
  cases h : s.fetch with
  | error c => exact ⟨_, step_of_fetch_error hfault h⟩
  | ok op => exact step_of_fetch hfault h ▸ exec_answers_next (decode op) s

/-! `Load` (R242 to R244). -/

theorem State.reg_of_v_eq_zeros {s : State} (h : s.v = Vector.replicate 16 0#8) (r : Reg) : s.reg r = 0#8 := by
  rw [State.reg_eq, h, Vector.get_eq_getElem, Vector.getElem_replicate]

theorem State.load_of_le (s : State) {image : List Byte} (h : image.length ≤ maxImage) :
    s.load image =
      ({ s with
         v := Vector.replicate 16 0#8
         i := 0#16
         pc := BitVec.ofNat 16 progBase
         mem := s.mem.writeList progBase image }, .done) :=
  if_neg (Nat.not_lt.2 h)

/-- Settles O57: 0x200 and the 3584 bytes from there make up memory, so the copy reads back and stays canonical. -/
theorem loadCopiesTheImage : Obligations.LoadCopiesTheImage := by
  intro s image hwf hlen
  have hfit : progBase + image.length ≤ memSize := Nat.add_le_add_left hlen progBase
  exact ⟨_, s.load_of_le hlen, Memory.wf_writeList image hwf hfit, State.reg_of_v_eq_zeros rfl, rfl, rfl,
    fun _ hk => Memory.read_writeList_inside image hwf hfit hk,
    fun _ ha => Memory.read_writeList_outside image s.mem progBase ha,
    rfl, rfl, rfl, rfl, rfl, rfl, rfl, rfl, rfl⟩

/-- Settles O58: the length is tested before anything is written. -/
theorem loadTooLongChangesNothing : Obligations.LoadTooLongChangesNothing :=
  fun _ _ hlong => if_pos hlong

/-! Power-on and `Reset` (R240, R241). -/

theorem State.key_of_keys_eq_clear {s : State} (h : s.keys = Vector.replicate 16 false) (k : Fin 16) :
    s.key k = false := by
  rw [State.key, h, Vector.get_eq_getElem, Vector.getElem_replicate]

theorem State.powerOn_read_low (config : Config) (low : LowMemInit) (a : Fin 512) :
    (State.powerOn config low).mem.read a.val = low.get a := by
  have hlen : low.toList.length = 512 := Vector.length_toList
  have hread := Memory.read_writeList_inside low.toList (m := []) rfl (base := 0) (k := a.val)
    (by rw [hlen]; decide) (by rw [hlen]; exact a.isLt)
  rwa [Nat.zero_add, Vector.getElem_toList] at hread

theorem State.powerOn_read_high (config : Config) (low : LowMemInit) {a : Nat} (h : 0x200 ≤ a) :
    (State.powerOn config low).mem.read a = 0x00#8 :=
  Memory.read_writeList_outside low.toList [] 0 (.inr (by rw [Vector.length_toList]; omega))

/-- Settles O55: memory holds `LOW_MEM_INIT` and nothing above it, and every other field is written out. -/
theorem powerOnValues : Obligations.PowerOnValues := fun c low =>
  ⟨State.reg_of_v_eq_zeros rfl, rfl, rfl, rfl, List.length_replicate, State.slot_of_stack_eq_replicate rfl,
    rfl, rfl, Framebuffer.cell_clear, State.key_of_keys_eq_clear rfl, rfl, rfl, rfl,
    State.powerOn_read_low c low, fun _ => State.powerOn_read_high c low⟩

/-- Settles O56: `Reset` and power-on write the same values, field by field, from the same parameters. -/
theorem resetKeepsOnlyMemory : Obligations.ResetKeepsOnlyMemory :=
  fun _ _ => ⟨rfl, rfl⟩

/-! Key events (R246, R247). -/

theorem State.key_setKey_same (s : State) (k : Fin 16) (b : Bool) : (s.setKey k b).key k = b := by
  rw [State.key_setKey, if_pos rfl]

theorem State.key_setKey_other (s : State) {k j : Fin 16} (b : Bool) (h : j ≠ k) : (s.setKey k b).key j = s.key j := by
  rw [State.key_setKey, if_neg h]

theorem State.setKey_setKey (s : State) (k : Fin 16) (b : Bool) : (s.setKey k b).setKey k b = s.setKey k b :=
  congrArg s.withKeys (Vector.set_set ..)

/-- Settles O59: both are a write of one flag. -/
theorem keyEventsWriteOneFlag : Obligations.KeyEventsWriteOneFlag := fun s k =>
  ⟨s.key_setKey_same k true, s.key_setKey_same k false,
    fun _ hj => ⟨s.key_setKey_other true hj, s.key_setKey_other false hj⟩, rfl, rfl,
    s.setKey_setKey k true, s.setKey_setKey k false⟩

end Sys2Proof.Machine
end
